-- ==== Sys2Proof/Config.lean ====
section
/-! DEFINITION. The parameters of the hardware (00_scope.md R6) and the free values the spec leaves
open. The numeric literals are the spec's and are unaudited (UNVERIFIED, log entry 14). -/

namespace Sys2Proof.Config

/-- `WORD_BITS`, the width of a word (R6, R7). -/
@[simp] abbrev wordBits : Nat := 32
/-- `ADDR_BITS`, the width of a host byte address (R6, 20_memory.md R50). -/
@[simp] abbrev addrBits : Nat := 13
/-- `CMD_BITS`, the width of a command word (R6, 30_encoding.md R80). -/
@[simp] abbrev cmdBits : Nat := 32
/-- `KEY_WORDS`, the words of the key (R6, 10_state.md R21). -/
@[simp] abbrev keyWords : Nat := 4

/-- `DELTA`, the round-sum increment (R6, R111). -/
@[simp] abbrev delta : BitVec wordBits := 0x9E3779B9
/-- `ROUND_BASE`, the constant term of the round count (R6, R112). -/
@[simp] abbrev roundBase : Nat := 6
/-- `ROUND_NUM`, the numerator of the round count (R6, R112). -/
@[simp] abbrev roundNum : Nat := 52
/-- `N_MIN`, the least block length in words (R6, R123). -/
@[simp] abbrev nMin : Nat := 2
/-- `BLOCK_WORDS`, the words of a full block (R6). -/
@[simp] abbrev blockWords : Nat := 64
/-- `BLOCK_BYTES`, the bytes of a full block (R6). -/
@[simp] abbrev blockBytes : Nat := 256
/-- `WORD_BYTES`, the bytes of a word (R6). -/
@[simp] abbrev wordBytes : Nat := 4
/-- `WINDOW_MAX`, the greatest window in bytes, and the size of `WBUF` (R6, R32). -/
@[simp] abbrev windowMax : Nat := 4096
/-- `TAIL_CONST`, the constant of the tail XOR (R6, R135). -/
@[simp] abbrev tailConst : BitVec 8 := 0xB7
/-- `TAIL_MAX`, the greatest number of tail bytes (R6, R149). -/
@[simp] abbrev tailMax : Nat := 7
/-- `SECRET_MAX`, the size of the secret buffer (R6, R31). -/
@[simp] abbrev secretMax : Nat := 64
/-- `KEY_BYTES`, the secret bytes a key is made of (R6, R101). -/
@[simp] abbrev keyBytes : Nat := 16

/-- What byte `index` of `WBUF` holds from reset number `epoch` on until something writes it: any
value, stable until written, never zero by assumption (10_state.md R40, 70_reset_and_hazards.md
R202). DESIGN CHOICE, log entry 3; safe: nothing can be proved of its value. -/
opaque wbufPowerUp (epoch index : Nat) : BitVec 8

/-- The same for byte `index` of `SECRET` (R40, R202). DESIGN CHOICE, log entry 3; safe. -/
opaque secretPowerUp (epoch index : Nat) : BitVec 8

/-- A free value of `width` bits: what working register number `slot` holds after draw number
`draw` (10_state.md R33, R35: "holds no defined value between commands"). DESIGN CHOICE, log entry
4; safe: nothing can be proved of its value. -/
opaque freeBits (width draw slot : Nat) : BitVec width

end Sys2Proof.Config
end

