-- ==== Sys2Proof/Word.lean ====
section
/-! DEFINITION. Words, bytes and their plainest arithmetic (00_scope.md R7, R8). -/

namespace Sys2Proof

/-- A byte is 8 bits (R7). -/
abbrev Byte := BitVec 8

/-- A word is `WORD_BITS` = 32 bits, unsigned (R6, R7). `+32` and `-32` of R8 are `+` and `-` of `Word`, `XOR` is
`^^^`, the logical right shift is `>>>`, the truncating left shift is `<<<`. -/
abbrev Word := BitVec Config.wordBits

/-- A command word, the value written to `CMD` (R6; 10_state.md R28). -/
abbrev CmdWord := BitVec Config.cmdBits

/-- A host byte address (R6; 20_memory.md R50). -/
abbrev Addr := BitVec Config.addrBits

end Sys2Proof
end

