-- ==== Sys2Proof/Machine/State.lean ====
section
/-! DEFINITION. The state of the machine (10_state.md R20 to R40), the host's acts and answers, and
the reasons a step can stop. -/

namespace Sys2Proof.Machine

/-- `PHASE`: the state of the stream state machine (R26). -/
inductive Phase where
  | idle | reading | transforming | writing | done
  deriving DecidableEq, Repr

/-- `ERR`: the outcome of the most recently completed command (R27, 60_exceptions.md R180). -/
inductive ErrCode where
  /-- Code 0: it completed without error. -/
  | none
  /-- Code 1, `InvalidKeyError` (R181). -/
  | invalidKey
  /-- Code 2, `NullInputError` (R182). -/
  | nullInput
  /-- Code 3, `UninitializedKeyError` (R183). -/
  | uninitializedKey
  /-- Code 4, `IllegalCommandError` (R184). -/
  | illegalCommand
  deriving DecidableEq, Repr

/-- `KEY[0..3]` (R21). -/
structure Key where
  k0 : Word
  k1 : Word
  k2 : Word
  k3 : Word
  deriving DecidableEq, Repr

/-- The working registers of the mixing engine (R33). No command reads one before writing it, and
none holds a defined value between commands: State holds free values in them (log entry 4). -/
structure MixRegs where
  sum : Word
  z : Word
  y : Word
  e : BitVec 2
  p : BitVec 6
  rnd : BitVec 6
  nreg : BitVec 7
  deriving DecidableEq, Repr

/-- The working registers of the chunker and the tail unit (R35), under the same terms. -/
structure ChkRegs where
  cnt : BitVec 5
  rem : BitVec 8
  len : BitVec 6
  tpos : BitVec 13
  widx : BitVec 13
  deriving DecidableEq, Repr

/-- Free values for the mixing engine's working registers (log entry 4). -/
def MixRegs.free (draw : Nat) : MixRegs where
  sum := Config.freeBits Config.wordBits draw 0
  z := Config.freeBits Config.wordBits draw 1
  y := Config.freeBits Config.wordBits draw 2
  e := Config.freeBits 2 draw 3
  p := Config.freeBits 6 draw 4
  rnd := Config.freeBits 6 draw 5
  nreg := Config.freeBits 7 draw 6

/-- Free values for the chunker's working registers (log entry 4). -/
def ChkRegs.free (draw : Nat) : ChkRegs where
  cnt := Config.freeBits 5 draw 7
  rem := Config.freeBits 8 draw 8
  len := Config.freeBits 6 draw 9
  tpos := Config.freeBits 13 draw 10
  widx := Config.freeBits 13 draw 11

/-- `SRC`: the source port (R36). -/
structure Source where
  attached : Bool
  bytes : List Byte
  cursor : Nat
  deriving DecidableEq, Repr

/-- A byte buffer: the bytes written since reset, by rising index. An unlisted byte has no value of
its own in the list; the buffers' reads give it its free power-up value (log entry 3). -/
abbrev Memory := List Host.Cell

/-- The widths of a host transaction (20_memory.md R52). -/
inductive Width where
  | w1 | w2 | w4
  deriving DecidableEq, Repr

/-- The number of bytes of a transaction. -/
def Width.bytes : Width → Nat
  | .w1 => 1
  | .w2 => 2
  | .w4 => 4

/-- One act of the host, from outside the machine (log entry 1). -/
inductive HostAct where
  /-- `MemRead(addr, n)` (20_memory.md R52). -/
  | memRead (addr : Addr) (n : Width)
  /-- `MemWrite(addr, n, v)` (R52); a 32-bit one at `CMD` runs a command (R28). -/
  | memWrite (addr : Addr) (n : Width) (v : Word)
  /-- `ATTACH bytes` (30_encoding.md R93, 10_state.md R36). -/
  | attach (bytes : List Byte)
  /-- `DETACH` (R93). -/
  | detach
  /-- `DRAIN` (R93, R37). -/
  | drain
  /-- The reset input (70_reset_and_hazards.md R200). -/
  | reset
  deriving DecidableEq, Repr

/-- What the host was answered (log entry 5). -/
inductive Reply where
  /-- No act has been taken since reset. -/
  | nothing
  /-- The act completed and returns no data. -/
  | completed
  /-- The data of an accepted read (R57). -/
  | data (v : Word)
  /-- The bytes a `DRAIN` returns (R93). -/
  | drained (bytes : List Byte)
  /-- The transaction was refused: the bus reports an error (R54). -/
  | busError
  deriving DecidableEq, Repr

/-- The whole state: the architectural state of R20 and the model's own fields `host`, `reply`,
`epoch`, `draws`. -/
structure State where
  /-- `KEY[0..3]` (R21). -/
  key : Key
  /-- `KEY_VALID` (R22). -/
  keyValid : Bool
  /-- `PHASE` (R26). -/
  phase : Phase
  /-- `ERR` (R27). -/
  err : ErrCode
  /-- `WSIZE`, 13 implemented bits (R29). -/
  wsize : BitVec 13
  /-- `SLEN` (R30). -/
  slen : Word
  /-- `SECRET[0..63]` (R31). -/
  secret : Memory
  /-- `WBUF[0..4095]` (R32). -/
  wbuf : Memory
  /-- `SRC` (R36). -/
  src : Source
  /-- `DST` (R37). -/
  dst : List Byte
  /-- `SUM, Z, Y, E, P, RND, NREG` (R33). -/
  mix : MixRegs
  /-- `CNT, REM, LEN, TPOS, WIDX` (R35). -/
  chk : ChkRegs
  /-- The host's acts to come, oldest first (log entry 1). -/
  host : List HostAct
  /-- The answer to the latest act (log entry 5). -/
  reply : Reply
  /-- The number of resets before the latest (log entry 12). -/
  epoch : Nat
  /-- The counter of draws of free values (log entry 4). -/
  draws : Nat
  deriving DecidableEq, Repr

/-- The machine right after reset (R40, R200). -/
def State.reset : State where
  key := { k0 := 0, k1 := 0, k2 := 0, k3 := 0 }
  keyValid := false
  phase := .idle
  err := .none
  wsize := 0
  slen := 0
  secret := []
  wbuf := []
  src := { attached := false, bytes := [], cursor := 0 }
  dst := []
  mix := .free 0
  chk := .free 0
  host := []
  reply := .nothing
  epoch := 0
  draws := 1

/-- Why the machine would stop with a fault. There is no constructor: the spec's errors are codes in
`ERR` after which the machine goes on (60_exceptions.md R180, R185, R187), and no command word has
undefined behaviour (R184). Log entry 16. -/
inductive Fault where
  deriving DecidableEq, Repr

/-- Why a step has no meaning. -/
inductive Refusal where
  /-- Raised by `exec` alone, for a command that has no meaning yet; safe. No arm raises it. -/
  | notModelled (mnemonic : String)
  deriving DecidableEq, Repr

end Sys2Proof.Machine
end

