-- ==== Sys2Proof/Machine/Flags.lean ====
section
/-! DEFINITION. The fields of `STATUS` (10_state.md R25 to R27). The hardware has no arithmetic
flag (41_block_cipher.md R110). -/

namespace Sys2Proof.Machine

/-- The encoding of `PHASE` (R26); 5, 6 and 7 never occur. -/
def Phase.code : Phase → BitVec 3
  | .idle => 0
  | .reading => 1
  | .transforming => 2
  | .writing => 3
  | .done => 4

/-- The error codes (60_exceptions.md R180, 10_state.md R27); 5, 6 and 7 never occur. -/
def ErrCode.code : ErrCode → BitVec 3
  | .none => 0
  | .invalidKey => 1
  | .nullInput => 2
  | .uninitializedKey => 3
  | .illegalCommand => 4

/-- `STATUS`: `KEY_VALID` in bit 0, `PHASE` in 3:1, `ERR` in 6:4, the rest 0 (R25). -/
def State.status (s : State) : Word :=
  0#25 ++ s.err.code ++ s.phase.code ++ BitVec.ofBool s.keyValid

end Sys2Proof.Machine
end

