-- ==== Sys2Proof/Machine/Ops.lean ====
section
/-! DEFINITION. The named operations over the buffers, the ports and the registers: bytes and
little-endian words (20_memory.md R55 to R57), the ports (10_state.md R36, R37), how a command
begins, raises its error and completes (60_exceptions.md R185), and reset (70_reset_and_hazards.md
R200). -/

namespace Sys2Proof.Machine

/-! ### A byte buffer -/

/-- The byte the list holds at `a`, if something has written it since reset. -/
def Memory.find? : Memory → Nat → Option Byte
  | [], _ => none
  | c :: m, a => if c.1 = a then some c.2 else Memory.find? m a

/-- Write one byte, keeping the addresses strictly rising. -/
def Memory.write : Memory → Nat → Byte → Memory
  | [], a, b => [(a, b)]
  | c :: m, a, b =>
    if a < c.1 then (a, b) :: c :: m
    else if a = c.1 then (a, b) :: m
    else c :: Memory.write m a b

/-- The canonical form: addresses strictly rising and all below `size`. An unlisted address has no
value, so no entry can equal it (log entry 3). -/
def Memory.wf (size : Nat) : Memory → Bool
  | [] => true
  | [c] => decide (c.1 < size)
  | c :: d :: m => decide (c.1 < d.1) && Memory.wf size (d :: m)

/-! ### `WBUF` and `SECRET` -/

/-- `WBUF[i]` (R32): the byte written last, or the free power-up value (R40, log entry 3). -/
def State.wbufRead (s : State) (i : Nat) : Byte :=
  (s.wbuf.find? i).getD (Config.wbufPowerUp s.epoch i)

/-- `WBUF[i] <- b` (R32). -/
def State.wbufWrite (s : State) (i : Nat) (b : Byte) : State :=
  { s with wbuf := s.wbuf.write i b }

/-- `SECRET[k]` (R31): the byte written last, or the free power-up value (R40, log entry 3). -/
def State.secretRead (s : State) (k : Nat) : Byte :=
  (s.secret.find? k).getD (Config.secretPowerUp s.epoch k)

/-- `SECRET[k] <- b`, which only the host does (R31). -/
def State.secretWrite (s : State) (k : Nat) (b : Byte) : State :=
  { s with secret := s.secret.write k b }

/-- Bytes written at increasing indexes from `i` on. -/
def State.wbufFill : State → Nat → List Byte → State
  | s, _, [] => s
  | s, i, b :: bs => State.wbufFill (s.wbufWrite i b) (i + 1) bs

/-- Bytes written at increasing indexes of `SECRET` from `k` on. -/
def State.secretFill : State → Nat → List Byte → State
  | s, _, [] => s
  | s, k, b :: bs => State.secretFill (s.secretWrite k b) (k + 1) bs

/-! ### Byte order -/

/-- The little-endian word of four bytes, `b0 + 2^8 * b1 + 2^16 * b2 + 2^24 * b3` (R55). -/
def wordLE (b0 b1 b2 b3 : Byte) : Word := b3 ++ b2 ++ b1 ++ b0

/-- `w[8k+7:8k]` (R55). -/
def byteOf (w : Word) (k : Nat) : Byte := w.extractLsb' (8 * k) 8

/-- The `n` low bytes of a word, least significant first (R57). -/
def lowBytes (w : Word) (n : Nat) : List Byte := (List.range n).map (byteOf w)

/-- The little-endian number of the `n` bytes at `a` of a buffer (R57). -/
def readLE (rd : Nat → Byte) (a : Nat) : Width → Word
  | .w1 => wordLE (rd a) 0 0 0
  | .w2 => wordLE (rd a) (rd (a + 1)) 0 0
  | .w4 => wordLE (rd a) (rd (a + 1)) (rd (a + 2)) (rd (a + 3))

/-- `LdW(a)`, the engine's word load from `WBUF` (R55). -/
def State.ldW (s : State) (a : Nat) : Word := readLE s.wbufRead a .w4

/-- `StW(a, w)`, the engine's word store to `WBUF` (R55). -/
def State.stW (s : State) (a : Nat) (w : Word) : State :=
  (((s.wbufWrite a (byteOf w 0)).wbufWrite (a + 1) (byteOf w 1)).wbufWrite (a + 2)
    (byteOf w 2)).wbufWrite (a + 3) (byteOf w 3)

/-- The block of `n` words at byte offset `off`: `data[p] = LdW(off + 4p)` (R55). -/
def State.loadBlock (s : State) (off n : Nat) : List Word :=
  (List.range n).map fun p => s.ldW (off + Config.wordBytes * p)

/-- A block written back at byte offset `off`: `StW(off + 4p, data[p])` (R55). -/
def State.storeBlock : State → Nat → List Word → State
  | s, _, [] => s
  | s, off, w :: ws => State.storeBlock (s.stW off w) (off + Config.wordBytes) ws

/-! ### The key -/

/-- `KEY[j]` for a two-bit index (R21, 41_block_cipher.md R114). -/
def Key.get (key : Key) (j : BitVec 2) : Word :=
  if j = 0 then key.k0 else if j = 1 then key.k1 else if j = 2 then key.k2 else key.k3

/-- Word `j` of the secret,
`SECRET[4j] + 2^8 * SECRET[4j+1] + 2^16 * SECRET[4j+2] + 2^24 * SECRET[4j+3]` (R56). -/
def State.secretWord (s : State) (j : Nat) : Word :=
  readLE s.secretRead (Config.wordBytes * j) .w4

/-- The `KEY_WORDS` = 4 words of the key, `KEY[j]` from word `j` of the secret (R56). -/
def State.deriveKey (s : State) : Key where
  k0 := s.secretWord 0
  k1 := s.secretWord 1
  k2 := s.secretWord 2
  k3 := s.secretWord 3

/-! ### The ports -/

/-- `SrcRemaining()` (R36). -/
def Source.remaining (src : Source) : Nat := src.bytes.length - src.cursor

/-- `SrcPop()` (R36): the byte at the cursor, the cursor one further. None when nothing remains,
where R36 does not define it. -/
def Source.pop? (src : Source) : Option (Byte × Source) :=
  match src.bytes[src.cursor]? with
  | some b => some (b, { src with cursor := src.cursor + 1 })
  | none => none

/-- Up to `n` pops in stream order (44_stream_codec.md R162, 20_memory.md R67). -/
def Source.take : Nat → Source → List Byte × Source
  | 0, src => ([], src)
  | n + 1, src =>
    match src.pop? with
    | none => ([], src)
    | some (b, src') => (b :: (Source.take n src').1, (Source.take n src').2)

/-- `DstPush` of bytes in order (R37). -/
def State.dstPush (s : State) (bs : List Byte) : State := { s with dst := s.dst ++ bs }

/-! ### How a command begins and ends -/

/-- `PHASE <- p` (R26). -/
def State.setPhase (s : State) (p : Phase) : State := { s with phase := p }

/-- Every command begins with `PHASE <- Idle`, before its checks (R26). -/
def State.begin (s : State) : State := s.setPhase .idle

/-- `raise E` (R185), the taking of an error: `ERR <- code(E)` and the command ends. Nothing is
saved, no mode changes and control goes nowhere; there is no command that returns (R187). It stands
after `State.begin` and before every other effect. -/
def raise (e : ErrCode) (s : State) : Host.Outcome State Fault Refusal :=
  .next { s with err := e }

/-- A command that completes without error ends with `ERR <- 0` (R185, R27). -/
def complete (s : State) : Host.Outcome State Fault Refusal :=
  .next { s with err := .none }

/-- The working registers of the mixing engine hold no defined value once a command that used them
is over (R33): free values (log entry 4). -/
def State.releaseMix (s : State) : State :=
  { s with mix := .free s.draws, draws := s.draws + 1 }

/-- The same for the working registers of the chunker and the tail unit (R35, log entry 4). -/
def State.releaseChk (s : State) : State :=
  { s with chk := .free s.draws, draws := s.draws + 1 }

/-! ### Reset -/

/-- The reset input (R200): every piece of state at its value of R40, the buffers and the working
registers unspecified anew (log entries 3, 4, 12). The host's further acts are no state of the
machine's and stay. -/
def State.doReset (s : State) : State :=
  { State.reset with
    host := s.host, reply := .completed, epoch := s.epoch + 1
    mix := .free s.draws, chk := .free s.draws, draws := s.draws + 1 }

end Sys2Proof.Machine
end

