-- ==== Sys2Proof/Machine/Bus.lean ====
section
/-! DEFINITION. The host's acts: the register block and its transactions (20_memory.md R51 to R54,
R57, R60), the ports and reset (30_encoding.md R93, 70_reset_and_hazards.md R200). -/

namespace Sys2Proof.Machine

/-- What an accepted transaction reaches (R51). -/
inductive Target where
  | cmd
  | status
  | wsize
  | slen
  | key (j : BitVec 2)
  | secret (k : Nat)
  | wbuf (i : Nat)
  deriving DecidableEq, Repr

/-- The register of word number `r` of the block (R51). -/
def registerAt (r : Nat) : Target :=
  match r with
  | 0 => .cmd
  | 1 => .status
  | 2 => .wsize
  | 3 => .slen
  | r => .key (BitVec.ofNat 2 r)

/-- Where a transaction of `n` bytes at `addr` goes, none if it is refused: misaligned, of a width its
row does not accept, or in a reserved range (R51, R52, R53). -/
def target? (addr : Addr) (n : Width) : Option Target :=
  let a := addr.toNat
  if a % n.bytes ≠ 0 then none
  else if a < 0x0010 + Config.wordBytes * Config.keyWords then
    if n = .w4 then some (registerAt (a / Config.wordBytes)) else none
  else if 0x0040 ≤ a ∧ a < 0x0040 + Config.secretMax then some (.secret (a - 0x0040))
  else if 0x1000 ≤ a then some (.wbuf (a - 0x1000))
  else none

/-- The data of an accepted read of `n` bytes (R51, R54, R57). -/
def State.readTarget (s : State) (n : Width) : Target → Word
  | .cmd => 0
  | .status => s.status
  | .wsize => s.wsize.setWidth Config.wordBits
  | .slen => s.slen
  | .key j => s.key.get j
  | .secret k => readLE s.secretRead k n
  | .wbuf i => readLE s.wbufRead i n

/-- `MemRead(addr, n)` (R52), none if it is refused. -/
def State.memRead (s : State) (addr : Addr) (n : Width) : Option Word :=
  (target? addr n).map (s.readTarget n)

/-- What an accepted write does to the state. A write to a read-only row changes nothing; `WSIZE`
keeps bits 12:0 (R54). `CMD` stores nothing (10_state.md R28): its write is the command. -/
def State.writeTarget (s : State) (n : Width) (v : Word) : Target → State
  | .cmd => s
  | .status => s
  | .wsize => { s with wsize := v.setWidth 13 }
  | .slen => { s with slen := v }
  | .key _ => s
  | .secret k => s.secretFill k (lowBytes v n.bytes)
  | .wbuf i => s.wbufFill i (lowBytes v n.bytes)

/-- What an act of the host comes to: it is settled, or it starts a command in the state given. -/
inductive Move where
  | settled (s : State)
  | command (c : CmdWord) (s : State)
  deriving DecidableEq, Repr

/-- The state with the host answered `r`. -/
def State.answer (s : State) (r : Reply) : State := { s with reply := r }

/-- A refused transaction changes no state and the bus reports an error (R54; log entry 2). -/
def settleRead (s : State) (addr : Addr) (n : Width) : Move :=
  match s.memRead addr n with
  | some v => .settled (s.answer (.data v))
  | none => .settled (s.answer .busError)

/-- `MemWrite(addr, n, v)` (R52): a write to `CMD` is a command (10_state.md R28). -/
def settleWrite (s : State) (addr : Addr) (n : Width) (v : Word) : Move :=
  match target? addr n with
  | none => .settled (s.answer .busError)
  | some .cmd => .command v (s.answer .completed)
  | some t => .settled ((s.writeTarget n v t).answer .completed)

/-- What one act of the host comes to. -/
def hostMove (act : HostAct) (s : State) : Move :=
  match act with
  | .memRead addr n => settleRead s addr n
  | .memWrite addr n v => settleWrite s addr n v
  | .attach bytes =>
    .settled ({ s with src := { attached := true, bytes, cursor := 0 } }.answer .completed)
  | .detach => .settled ({ s with src := { s.src with attached := false } }.answer .completed)
  | .drain => .settled ({ s with dst := [] }.answer (.drained s.dst))
  | .reset => .settled s.doReset

/-- The act taken off the host's list. -/
def State.take (s : State) (rest : List HostAct) : State := { s with host := rest }

end Sys2Proof.Machine
end

