-- ==== Sys2Proof/Syntax.lean ====
section
/-! DEFINITION. The eight commands (30_encoding.md R84), one constructor per row of
spec/opcode_table.json, with the operand fields of R81 and R83. -/

namespace Sys2Proof

/-- A command. `off` and `start` are the field `OFF` (13 bits, an unscaled byte offset into `WBUF`),
`n` is the field `N` (7 bits, a block length in words); both are zero-extended (R83). -/
inductive Instr where
  /-- `KEYLD`: derive the key (R100). -/
  | keyld
  /-- `ENCB off, n`: forward-mix one block (R121). -/
  | encb (off : BitVec 13) (n : BitVec 7)
  /-- `DECB off, n`: inverse-mix one block (R122). -/
  | decb (off : BitVec 13) (n : BitVec 7)
  /-- `TAILX start`: tail XOR (R138). -/
  | tailx (start : BitVec 13)
  /-- `ENCW`: encrypt the window (R151). -/
  | encw
  /-- `DECW`: decrypt the window (R152). -/
  | decw
  /-- `ENCS`: encrypt the source stream (R163). -/
  | encs
  /-- `DECS`: decrypt the source stream (R164). -/
  | decs
  deriving DecidableEq, Repr

end Sys2Proof
end

