-- ==== Sys2Proof/Machine/Operands.lean ====
section
/-! DEFINITION. What the operands of a command must be (30_encoding.md R87, R88, R89) and how the
window length cuts a window (43_window_chunker.md R145). -/

namespace Sys2Proof.Machine

/-- Operand legality of `ENCB` and `DECB` (R87). -/
abbrev BlockLegal (off : BitVec 13) (n : BitVec 7) : Prop :=
  Config.nMin ≤ n.toNat ∧ n.toNat ≤ Config.blockWords ∧ off.toNat % Config.wordBytes = 0 ∧
    off.toNat + Config.wordBytes * n.toNat ≤ Config.windowMax

/-- Operand legality of `TAILX`, which reads `WSIZE` (R88). -/
abbrev TailLegal (start wsize : BitVec 13) : Prop :=
  wsize.toNat ≤ Config.windowMax ∧ start.toNat ≤ wsize.toNat ∧
    wsize.toNat - start.toNat ≤ Config.tailMax

/-- Legality of `ENCW` and `DECW`, which read `WSIZE` (R89). -/
abbrev WindowLegal (wsize : BitVec 13) : Prop := wsize.toNat ≤ Config.windowMax

/-- The check of R94 that comes after the match of R84: is command `i` legal while `WSIZE` holds
`wsize`? `KEYLD`, `ENCS` and `DECS` have no condition (R89). -/
def legal (i : Instr) (wsize : BitVec 13) : Bool :=
  match i with
  | .keyld => true
  | .encb off n => decide (BlockLegal off n)
  | .decb off n => decide (BlockLegal off n)
  | .tailx start => decide (TailLegal start wsize)
  | .encw => decide (WindowLegal wsize)
  | .decw => decide (WindowLegal wsize)
  | .encs => true
  | .decs => true

/-- The numbers of R145: full blocks `c`, bytes after them `r`, candidate partial-block words `l`,
words of the partial block that is ciphered `p` (0 for none), first tail byte `tpos`, tail bytes
`t`. -/
structure Partition where
  c : Nat
  r : Nat
  l : Nat
  p : Nat
  tpos : Nat
  t : Nat
  deriving DecidableEq, Repr

/-- The partition of a window of `size` bytes (R145, with the edge case of R149). -/
def partition (size : Nat) : Partition :=
  let c := size / Config.blockBytes
  let r := size - Config.blockBytes * c
  let l := r / Config.wordBytes
  if l > 1 then
    { c, r, l, p := l, tpos := Config.blockBytes * c + Config.wordBytes * l
      t := r - Config.wordBytes * l }
  else
    { c, r, l, p := 0, tpos := Config.blockBytes * c, t := r }

/-- A partial block that is ciphered has at least two words (R149). -/
theorem partition_two_le_p {size : Nat} (h : 0 < (partition size).p) :
    Config.nMin ≤ (partition size).p := by
  unfold partition at h ⊢
  dsimp only at h ⊢
  split at h <;> split <;> simp_all
  omega

/-- A window has at most seven tail bytes (R149). -/
theorem partition_t_le (size : Nat) : (partition size).t ≤ Config.tailMax := by
  unfold partition
  dsimp only [Config.blockBytes, Config.wordBytes, Config.tailMax]
  split <;> dsimp only <;> omega

end Sys2Proof.Machine
end

