-- ==== Sys2Proof/WellFormed.lean ====
section
/-! DEFINITION. Which commands are well formed as words, whatever the state: the operand legality
that needs the command word alone (30_encoding.md R87). The legality that reads `WSIZE` (R88, R89)
is `Machine.legal`. -/

namespace Sys2Proof

/-- A block command is well formed when its operands are legal (R87). The operands of `TAILX` are
judged against `WSIZE` only (R88), and the other commands have none. -/
def Instr.wellFormed : Instr → Bool
  | .encb off n => decide (Machine.BlockLegal off n)
  | .decb off n => decide (Machine.BlockLegal off n)
  | .keyld => true
  | .tailx _ => true
  | .encw => true
  | .decw => true
  | .encs => true
  | .decs => true

end Sys2Proof
end

