-- ==== Sys2Proof/Decode.lean ====
section
/-! DEFINITION. The command word: fields (30_encoding.md R81), the decoder (R84 to R86, total on
every word), the opcode table of R84, and the encoder (R83). The operand legality of R87 to R89
comes after the match (R84) and is `Machine.legal`; R94 allows the split (DEDUCED, log entry 7). -/

namespace Sys2Proof

/-- `OPC`, bits 3:0 (R81). -/
def fieldOpc (c : CmdWord) : BitVec 4 := c.extractLsb' 0 4
/-- `RSV0`, bits 7:4 (R81). -/
def fieldRsv0 (c : CmdWord) : BitVec 4 := c.extractLsb' 4 4
/-- `N`, bits 14:8 (R81). -/
def fieldN (c : CmdWord) : BitVec 7 := c.extractLsb' 8 7
/-- `RSV1`, bit 15 (R81). -/
def fieldRsv1 (c : CmdWord) : BitVec 1 := c.extractLsb' 15 1
/-- `OFF`, bits 28:16 (R81). -/
def fieldOff (c : CmdWord) : BitVec 13 := c.extractLsb' 16 13
/-- `RSV2`, bits 31:29 (R81). -/
def fieldRsv2 (c : CmdWord) : BitVec 3 := c.extractLsb' 29 3

/-- Why a word is none of the eight commands. -/
inductive DecodeError where
  /-- A bit of `RSV0`, `RSV1` or `RSV2` is 1 (R86). -/
  | reservedBit
  /-- `OPC` is `0x0` or `0x9` to `0xF` (R85). -/
  | reservedOpcode
  /-- The format has no field `N` or no field `OFF` and its bits are not 0 (R82, R86). -/
  | operandBit
  deriving DecidableEq, Repr

/-- What a word decodes to. -/
inductive Decoded where
  | command (i : Instr)
  | illegal (why : DecodeError)
  deriving DecidableEq, Repr

/-- The instruction of a decoded word, if it is one. -/
def Decoded.instr? : Decoded → Option Instr
  | .command i => some i
  | .illegal _ => none

/-- Format Z: `N` and `OFF` must be 0 (R82). -/
def decodeZ (c : CmdWord) (i : Instr) : Decoded :=
  if fieldN c = 0 ∧ fieldOff c = 0 then .command i else .illegal .operandBit

/-- The decoder: the match of R84, with the reserved opcodes of R85 and the reserved bits of R86. -/
def decode (c : CmdWord) : Decoded :=
  if fieldRsv0 c ≠ 0 ∨ fieldRsv1 c ≠ 0 ∨ fieldRsv2 c ≠ 0 then .illegal .reservedBit
  else if fieldOpc c = 1 then decodeZ c .keyld
  else if fieldOpc c = 2 then .command (.encb (fieldOff c) (fieldN c))
  else if fieldOpc c = 3 then .command (.decb (fieldOff c) (fieldN c))
  else if fieldOpc c = 4 then
    if fieldN c = 0 then .command (.tailx (fieldOff c)) else .illegal .operandBit
  else if fieldOpc c = 5 then decodeZ c .encw
  else if fieldOpc c = 6 then decodeZ c .decw
  else if fieldOpc c = 7 then decodeZ c .encs
  else if fieldOpc c = 8 then decodeZ c .decs
  else .illegal .reservedOpcode

/-- The whole of R94: the command a word stands for while `WSIZE` holds `wsize`, if it is legal. -/
def decodeLegal (c : CmdWord) (wsize : BitVec 13) : Option Instr :=
  (decode c).instr?.filter fun i => Machine.legal i wsize

/-- A word from its fields: `c = OPC + 2^8 * N + 2^16 * OFF`, the reserved bits 0 (R81, R83). -/
def assemble (opc : BitVec 4) (n : BitVec 7) (off : BitVec 13) : CmdWord :=
  0#3 ++ off ++ 0#1 ++ n ++ 0#4 ++ opc

/-- The encoder (R83, R84). -/
def encode : Instr → CmdWord
  | .keyld => assemble 1 0 0
  | .encb off n => assemble 2 n off
  | .decb off n => assemble 3 n off
  | .tailx start => assemble 4 0 start
  | .encw => assemble 5 0 0
  | .decw => assemble 6 0 0
  | .encs => assemble 7 0 0
  | .decs => assemble 8 0 0

/-- The mnemonics of R84. -/
inductive Mnemonic where
  | KEYLD | ENCB | DECB | TAILX | ENCW | DECW | ENCS | DECS
  deriving DecidableEq, Repr

/-- The mnemonic of a command (R84). -/
def Instr.mnemonic : Instr → Mnemonic
  | .keyld => .KEYLD
  | .encb _ _ => .ENCB
  | .decb _ _ => .DECB
  | .tailx _ => .TAILX
  | .encw => .ENCW
  | .decw => .DECW
  | .encs => .ENCS
  | .decs => .DECS

/-- A row of the opcode map: a word `c` is the command iff `(c AND mask) = pattern` (R84). -/
structure OpcodeRow where
  mnemonic : Mnemonic
  pattern : CmdWord
  mask : CmdWord
  deriving DecidableEq, Repr

/-- The opcode map (R84). -/
def opcodeRow : Mnemonic → OpcodeRow
  | .KEYLD => { mnemonic := .KEYLD, pattern := 0x00000001#32, mask := 0xFFFFFFFF#32 }
  | .ENCB => { mnemonic := .ENCB, pattern := 0x00000002#32, mask := 0xE00080FF#32 }
  | .DECB => { mnemonic := .DECB, pattern := 0x00000003#32, mask := 0xE00080FF#32 }
  | .TAILX => { mnemonic := .TAILX, pattern := 0x00000004#32, mask := 0xE000FFFF#32 }
  | .ENCW => { mnemonic := .ENCW, pattern := 0x00000005#32, mask := 0xFFFFFFFF#32 }
  | .DECW => { mnemonic := .DECW, pattern := 0x00000006#32, mask := 0xFFFFFFFF#32 }
  | .ENCS => { mnemonic := .ENCS, pattern := 0x00000007#32, mask := 0xFFFFFFFF#32 }
  | .DECS => { mnemonic := .DECS, pattern := 0x00000008#32, mask := 0xFFFFFFFF#32 }

/-- The instruction the decoder reads from `nbits` bits `w`, numbered as the opcode table numbers
them: bit 0 is the least significant bit of the one 32-bit command word, every bit above is 0. -/
def decodeTableWord (nbits w : Nat) : Option Instr :=
  (decode (BitVec.ofNat Config.cmdBits (w % 2 ^ nbits))).instr?

end Sys2Proof
end

