-- ==== Sys2Proof/Machine/Mix.lean ====
section
/-! DEFINITION. The mixing engine as pure functions of a block, its length and the key
(41_block_cipher.md R110 to R119, R123, R124). -/

namespace Sys2Proof.Machine

/-- `Rounds(N) = 6 + (52 div N)` (R112). -/
def rounds (n : Nat) : Nat := Config.roundBase + Config.roundNum / n

/-- `e = (sum >> 2) AND 3` (R115). -/
def roundE (sum : Word) : BitVec 2 := (sum >>> 2).setWidth 2

/-- The key index `(p AND 3) XOR e` (R114). -/
def keyIndex (p : Nat) (e : BitVec 2) : BitVec 2 := BitVec.ofNat 2 p ^^^ e

/-- `MX(sum, y, z, p, e, key)` (R113). -/
def mx (sum y z : Word) (p : Nat) (e : BitVec 2) (key : Key) : Word :=
  let value1 := (z >>> 5) ^^^ (y <<< 2)
  let value2 := (y >>> 3) ^^^ (z <<< 4)
  let value3 := sum ^^^ y
  let value4 := key.get (keyIndex p e) ^^^ z
  (value1 + value2) ^^^ (value3 + value4)

/-- `data[p]`. Every index used is below the block's length. -/
def word (data : List Word) (p : Nat) : Word := data.getD p 0

/-- The cyclically next word of position `p`: `data[p+1]`, or `data[0]` after the last (R115). -/
def nextWord (data : List Word) (n p : Nat) : Word :=
  if p = n - 1 then word data 0 else word data (p + 1)

/-- The cyclically previous word of position `p`: `data[p-1]`, or `data[N-1]` before the first
(R119). -/
def prevWord (data : List Word) (n p : Nat) : Word :=
  if p = 0 then word data (n - 1) else word data (p - 1)

/-- One position of a forward round: `data[p]` is updated and becomes the cursor `z` (R115). The pair
is the block and `z`. -/
def encPos (key : Key) (sum : Word) (n : Nat) (st : List Word × Word) (p : Nat) :
    List Word × Word :=
  let y := nextWord st.1 n p
  let new := word st.1 p + mx sum y st.2 p (roundE sum) key
  (st.1.set p new, new)

/-- One forward round: positions ascending (R115). -/
def encRound (key : Key) (sum : Word) (n : Nat) (st : List Word × Word) : List Word × Word :=
  (List.range n).foldl (encPos key sum n) st

/-- `k` forward rounds; `sum` is what the round before left, `z` is carried (R115, R117). -/
def encRounds (key : Key) (n : Nat) : Nat → Word → List Word × Word → List Word × Word
  | 0, _, st => st
  | k + 1, sum, st =>
    encRounds key n k (sum + Config.delta) (encRound key (sum + Config.delta) n st)

/-- `MixEnc(data, N, key)` (R115). It has no meaning for `N < 2` (R123), so it asks for the proof. -/
def mixEnc (data : List Word) (n : Nat) (_two_le : Config.nMin ≤ n) (key : Key) : List Word :=
  (encRounds key n (rounds n) 0 (data, word data (n - 1))).1

/-- One position of an inverse round: both neighbours are read now, `data[p]` is updated by
subtraction (R119). -/
def decPos (key : Key) (sum : Word) (n : Nat) (data : List Word) (p : Nat) : List Word :=
  let z := prevWord data n p
  let y := nextWord data n p
  data.set p (word data p - mx sum y z p (roundE sum) key)

/-- One inverse round: positions descending (R119). -/
def decRound (key : Key) (sum : Word) (n : Nat) (data : List Word) : List Word :=
  (List.range n).reverse.foldl (decPos key sum n) data

/-- `k` inverse rounds, the first with `sum`, each later one with `DELTA` less (R119). -/
def decRounds (key : Key) (n : Nat) : Nat → Word → List Word → List Word
  | 0, _, data => data
  | k + 1, sum, data => decRounds key n k (sum - Config.delta) (decRound key sum n data)

/-- `MixDec(data, N, key)` (R119), for `N ≥ 2` (R123). -/
def mixDec (data : List Word) (n : Nat) (_two_le : Config.nMin ≤ n) (key : Key) : List Word :=
  decRounds key n (rounds n) (BitVec.ofNat Config.wordBits (rounds n) * Config.delta) data

/-- The direction `dir`: 0 encrypts, 1 decrypts (00_scope.md section 7, 30_encoding.md R83). -/
inductive Dir where
  | encrypt | decrypt
  deriving DecidableEq, Repr

/-- `MixEnc` or `MixDec` by direction (43_window_chunker.md R150). -/
def mixBlock (dir : Dir) (data : List Word) (n : Nat) (two_le : Config.nMin ≤ n) (key : Key) :
    List Word :=
  match dir with
  | .encrypt => mixEnc data n two_le key
  | .decrypt => mixDec data n two_le key

/-- `Block(dir, off, n)` (R150): load the block, mix it, store it. Loading it whole first is
equivalent to working in the buffer (41_block_cipher.md R121; log entry 9). -/
def runBlock (dir : Dir) (off n : Nat) (two_le : Config.nMin ≤ n) (s : State) : State :=
  s.storeBlock off (mixBlock dir (s.loadBlock off n) n two_le s.key)

end Sys2Proof.Machine
end

