-- ==== Sys2Proof/Machine/BlockCipher.lean ====
section
/-! DEFINITION. The block commands of the mixing engine: `ENCB`, `DECB` (41_block_cipher.md R121,
R122). -/

namespace Sys2Proof.Machine

/-- The block command in direction `dir` (R121, R122): the legality of R87, then the key check of
60_exceptions.md R183, then the block. -/
def blockCommand (dir : Dir) (off : BitVec 13) (n : BitVec 7) (s : State) :
    Host.Outcome State Fault Refusal :=
  let s := s.begin
  if h : BlockLegal off n then
    if s.keyValid then complete (runBlock dir off.toNat n.toNat h.1 s).releaseMix
    else raise .uninitializedKey s
  else raise .illegalCommand s

/-- `ENCB off, n` (R121). -/
def execEncb (off : BitVec 13) (n : BitVec 7) (s : State) : Host.Outcome State Fault Refusal :=
  blockCommand .encrypt off n s

/-- `DECB off, n` (R122). -/
def execDecb (off : BitVec 13) (n : BitVec 7) (s : State) : Host.Outcome State Fault Refusal :=
  blockCommand .decrypt off n s

end Sys2Proof.Machine
end

