-- ==== Sys2Proof/Machine/KeyDerivation.lean ====
section
/-! DEFINITION. The unit `key_derivation`: `KEYLD` (40_key_derivation.md). -/

namespace Sys2Proof.Machine

/-- `KEYLD` (R100): a secret of fewer than 16 bytes is `InvalidKeyError` (R101); otherwise the four
words are written together and the key is valid. -/
def execKeyld (s : State) : Host.Outcome State Fault Refusal :=
  let s := s.begin
  if s.slen.toNat < Config.keyBytes then raise .invalidKey s
  else complete { s with key := s.deriveKey, keyValid := true }

end Sys2Proof.Machine
end

