-- ==== Sys2Proof/Machine/TailXor.lean ====
section
/-! DEFINITION. The unit `tail_xor_obfuscator`: the tail transform and `TAILX` (42_tail_xor.md). -/

namespace Sys2Proof.Machine

/-- `Mask(d) = (d XOR 0xB7)[7:0]` (R135), for a distance 1 to 7 from the end of the window; the spec
defines it for no other distance (93_implementation_defined.md U4), so it asks for the proof. -/
def mask (d : Nat) (_range : 1 ≤ d ∧ d ≤ Config.tailMax) : Byte :=
  BitVec.ofNat 8 d ^^^ Config.tailConst

/-- The tail transform of the last `t` bytes of a window of `size` bytes, ascending (R135, R138). -/
def tailXor (size : Nat) : (t : Nat) → t ≤ Config.tailMax → State → State
  | 0, _, s => s
  | t + 1, h, s =>
    let i := size - (t + 1)
    tailXor size t (Nat.le_of_succ_le h)
      (s.wbufWrite i (s.wbufRead i ^^^ mask (t + 1) ⟨Nat.succ_le_succ (Nat.zero_le t), h⟩))

/-- `TAILX start` (R138): the legality of R88, then the tail transform of bytes `start` to
`WSIZE - 1`. It needs no key. -/
def execTailx (start : BitVec 13) (s : State) : Host.Outcome State Fault Refusal :=
  let s := s.begin
  if h : TailLegal start s.wsize then
    complete (tailXor s.wsize.toNat (s.wsize.toNat - start.toNat) h.2.2 s).releaseChk
  else raise .illegalCommand s

end Sys2Proof.Machine
end

