-- ==== Sys2Proof/Machine/Window.lean ====
section
/-! DEFINITION. The window level of the unit `stream_chunker`: `Window(dir)`, `ENCW`, `DECW`
(43_window_chunker.md). -/

namespace Sys2Proof.Machine

/-- The full blocks `0 .. count-1` of a window, ascending (R146, R150). -/
def fullBlocks (dir : Dir) (count : Nat) (s : State) : State :=
  (List.range count).foldl
    (fun s c => runBlock dir (Config.blockBytes * c) Config.blockWords (by decide) s) s

/-- The partial block of a window, if it has one (R147, R150). -/
def partialBlock (dir : Dir) (size : Nat) (s : State) : State :=
  if h : 0 < (partition size).p then
    runBlock dir (Config.blockBytes * (partition size).c) (partition size).p
      (partition_two_le_p h) s
  else s

/-- `Window(dir)` (R150): full blocks, partial block, tail, in place. -/
def window (dir : Dir) (s : State) : State :=
  let size := s.wsize.toNat
  tailXor size (partition size).t (partition_t_le size)
    (partialBlock dir size (fullBlocks dir (partition size).c s))

/-- The window command in direction `dir` (R151, R152): the legality of 30_encoding.md R89, then the
key check, made whatever the window holds, then the window. -/
def windowCommand (dir : Dir) (s : State) : Host.Outcome State Fault Refusal :=
  let s := s.begin
  if WindowLegal s.wsize then
    if s.keyValid then complete (window dir s).releaseMix.releaseChk
    else raise .uninitializedKey s
  else raise .illegalCommand s

/-- `ENCW` (R151). -/
def execEncw (s : State) : Host.Outcome State Fault Refusal := windowCommand .encrypt s

/-- `DECW` (R152). -/
def execDecw (s : State) : Host.Outcome State Fault Refusal := windowCommand .decrypt s

end Sys2Proof.Machine
end

