-- ==== Sys2Proof/Machine/Stream.lean ====
section
/-! DEFINITION. The stream level of the unit `stream_chunker`: `Stream(dir)`, `ENCS`, `DECS`
(44_stream_codec.md). -/

namespace Sys2Proof.Machine

/-- Reading (R160, R162): pop up to `WINDOW_MAX` source bytes into `WBUF` and set `WSIZE`. -/
def readPhase (s : State) : State :=
  let popped := s.src.take (min Config.windowMax s.src.remaining)
  let filled := ({ s.setPhase .reading with src := popped.2 }).wbufFill 0 popped.1
  { filled with wsize := BitVec.ofNat 13 popped.1.length }

/-- Transforming (R160, R162). -/
def transformPhase (dir : Dir) (s : State) : State := window dir (s.setPhase .transforming)

/-- Writing (R160, R162): push `WBUF[0 .. WSIZE-1]` in index order. -/
def writePhase (s : State) : State :=
  (s.setPhase .writing).dstPush ((List.range s.wsize.toNat).map s.wbufRead)

/-- One turn of the stream loop: one window (R162). -/
def streamTurn (dir : Dir) (s : State) : State := writePhase (transformPhase dir (readPhase s))

/-- The stream loop, the exit test after Writing (R162). The first argument bounds the turns; the
loop leaves by its exit test before it is used up (R160: every turn that goes on has consumed 4096
source bytes; log entry 11). -/
def streamLoop (dir : Dir) : Nat → State → State
  | 0, s => s
  | k + 1, s =>
    let s' := streamTurn dir s
    if s'.src.remaining = 0 then s' else streamLoop dir k s'

/-- `Stream(dir)` (R162). -/
def stream (dir : Dir) (s : State) : State :=
  (streamLoop dir (s.src.remaining / Config.windowMax + 1) s).setPhase .done

/-- The stream command in direction `dir` (R163, R164), with the preconditions of R165: the key, then
the source. -/
def streamCommand (dir : Dir) (s : State) : Host.Outcome State Fault Refusal :=
  let s := s.begin
  if s.keyValid then
    if s.src.attached then complete (stream dir s).releaseMix.releaseChk
    else raise .nullInput s
  else raise .uninitializedKey s

/-- `ENCS` (R163). -/
def execEncs (s : State) : Host.Outcome State Fault Refusal := streamCommand .encrypt s

/-- `DECS` (R164). -/
def execDecs (s : State) : Host.Outcome State Fault Refusal := streamCommand .decrypt s

end Sys2Proof.Machine
end

