-- ==== Sys2Proof/Machine/Dispatch.lean ====
section
/-! DEFINITION. What each command does: one arm per constructor of Instr. -/

namespace Sys2Proof.Machine

/-- The command `i` executed in state `s` (30_encoding.md R84). -/
def exec (i : Instr) (s : State) : Host.Outcome State Fault Refusal :=
  match i with
  | .keyld => Sys2Proof.Machine.execKeyld s
  | .encb off n => Sys2Proof.Machine.execEncb off n s
  | .decb off n => Sys2Proof.Machine.execDecb off n s
  | .tailx start => Sys2Proof.Machine.execTailx start s
  | .encw => Sys2Proof.Machine.execEncw s
  | .decw => Sys2Proof.Machine.execDecw s
  | .encs => Sys2Proof.Machine.execEncs s
  | .decs => Sys2Proof.Machine.execDecs s

end Sys2Proof.Machine
end

