-- ==== Sys2Proof/Machine/Command.lean ====
section
/-! DEFINITION. The command a word written to `CMD` is (10_state.md R28, 30_encoding.md R94). -/

namespace Sys2Proof.Machine

/-- Execute the command word `c`: the command it decodes to, or `IllegalCommandError` (R85, R86,
R94, 60_exceptions.md R184). -/
def runCommand (c : CmdWord) (s : State) : Host.Outcome State Fault Refusal :=
  match decode c with
  | .command i => exec i s
  | .illegal _ => raise .illegalCommand s.begin

/-- The act by which the host issues the command word `c` (R28). -/
def commandAct (c : CmdWord) : HostAct := .memWrite 0x0000 .w4 c

end Sys2Proof.Machine
end

