-- ==== Sys2Proof/Machine/Step.lean ====
section
/-! DEFINITION. One step: the host's oldest act, whole (20_memory.md R63, R68). -/

namespace Sys2Proof.Machine

/-- One step takes the host's oldest act to its end; a command is one atomic step (R5, R68). With no
act to come the engine waits and nothing changes (10_state.md R40, 70_reset_and_hazards.md R200; log
entry 6). -/
def step (s : State) : Host.Outcome State Fault Refusal :=
  match s.host with
  | [] => .next s
  | act :: rest =>
    match hostMove act (s.take rest) with
    | .settled t => .next t
    | .command c t => runCommand c t

/-- `s` with the command word made of the `nbits` bits `w` as the host's next act, so that the next
step runs exactly it (log entry 1). -/
def State.withFetchWord (s : State) (nbits w : Nat) : State :=
  { s with host := commandAct (BitVec.ofNat Config.cmdBits (w % 2 ^ nbits)) :: s.host }

end Sys2Proof.Machine
end

