-- ==== Sys2Proof/Safety.lean ====
section
/-! DEFINITION. The terms in which claims about the machine are stated: the invariant of a state
between two acts of the host, and the bytes of a transformed window as a function of the window's
bytes. No definition of the machine uses one of these. -/

namespace Sys2Proof.Machine

/-- What holds of the state between two acts of the host: the buffers are in canonical form and inside
their sizes (10_state.md R31, R32), the source's cursor is inside its bytes (R36), `PHASE` is `Idle`
or `Done` (R26), `Done` is left by a command that completed with a valid key (R26, R165), and a key
that was never derived is the key of reset (R22, R23, R40). -/
structure State.Inv (s : State) : Prop where
  secret_wf : s.secret.wf Config.secretMax = true
  wbuf_wf : s.wbuf.wf Config.windowMax = true
  cursor_le : s.src.cursor ≤ s.src.bytes.length
  phase_rest : s.phase = .idle ∨ s.phase = .done
  done_clean : s.phase = .done → s.err = .none ∧ s.keyValid = true
  key_reset : s.keyValid = false → s.key = State.reset.key

/-- The words of a block whose bytes are `rd off`, `rd (off + 1)`, … (20_memory.md R55). -/
def blockOf (rd : Nat → Byte) (off n : Nat) : List Word :=
  (List.range n).map fun p => readLE rd (off + Config.wordBytes * p) .w4

/-- Byte `i` of the block of `n` words at `off` once it is mixed (R55; 43_window_chunker.md R150). -/
def mixedByte (dir : Dir) (key : Key) (rd : Nat → Byte) (off n : Nat)
    (two_le : Config.nMin ≤ n) (i : Nat) : Byte :=
  byteOf (word (mixBlock dir (blockOf rd off n) n two_le key) ((i - off) / Config.wordBytes))
    ((i - off) % Config.wordBytes)

/-- The mask of distance `d`, no change outside 1 to `TAIL_MAX` (42_tail_xor.md R135). -/
def tailMask (d : Nat) : Byte :=
  if h : 1 ≤ d ∧ d ≤ Config.tailMax then mask d h else 0

/-- Byte `i` of a window of `size` bytes `rd 0, rd 1, …` once it is transformed: a byte of a full
block, of the partial block, or of the tail (43_window_chunker.md R145 to R150). The bytes at `size`
and above are as they were. -/
def windowByte (dir : Dir) (key : Key) (rd : Nat → Byte) (size i : Nat) : Byte :=
  if i < Config.blockBytes * (partition size).c then
    mixedByte dir key rd (Config.blockBytes * (i / Config.blockBytes)) Config.blockWords
      (by decide) i
  else if i < (partition size).tpos then
    if h : 0 < (partition size).p then
      mixedByte dir key rd (Config.blockBytes * (partition size).c) (partition size).p
        (partition_two_le_p h) i
    else rd i
  else rd i ^^^ tailMask (size - i)

/-- The source bytes still to be read (10_state.md R36). -/
def Source.pending (src : Source) : List Byte := src.bytes.drop src.cursor

/-- Byte `i` of a list, as a reader of bytes. -/
def listByte (bs : List Byte) (i : Nat) : Byte := bs.getD i 0

/-- The bytes of a whole sequence partitioned as one window of its length, with no limit on the length
(44_stream_codec.md R167). -/
def wholeImage (dir : Dir) (key : Key) (bs : List Byte) : List Byte :=
  (List.range bs.length).map fun i => windowByte dir key (listByte bs) bs.length i

/-- The length of the last window of a stream of `len` bytes: 1 to `WINDOW_MAX`, 0 for an empty
stream (44_stream_codec.md R161). -/
def lastWindow (len : Nat) : Nat := if len = 0 then 0 else (len - 1) % Config.windowMax + 1

/-- Byte `i` of `WBUF` after a stream whose output is `out`, when it was `rd i` before: the last window's
bytes; above them the bytes of the window before the last, if there was one; else as it was
(44_stream_codec.md R162). -/
def streamBuffer (rd : Nat → Byte) (out : List Byte) (i : Nat) : Byte :=
  let last := lastWindow out.length
  let start := out.length - last
  if i < last then listByte out (start + i)
  else if i < Config.windowMax ∧ Config.windowMax ≤ start then
    listByte out (start - Config.windowMax + i)
  else rd i

end Sys2Proof.Machine
end

