-- ==== Sys2Proof/Certificates/Slice0/Obligations.lean ====
section
/-! DEFINITION. The statements about the machine, from the numbered rules of spec/. The functions under
Sys2Proof.Spec write an algorithm of the spec out on numbers, apart from the machine's own text. -/

namespace Sys2Proof.Spec

open Sys2Proof.Machine

/-- The algorithm of 30_encoding.md R94 on the number of the word. -/
def decode (c : Word) (wsize : BitVec 13) : Option Instr :=
  let v := c.toNat
  let ws := wsize.toNat
  if v / 2 ^ 29 % 8 ≠ 0 ∨ v / 2 ^ 15 % 2 ≠ 0 ∨ v / 2 ^ 4 % 16 ≠ 0 then none
  else
    let opc := v % 16
    let n := v / 2 ^ 8 % 128
    let off := v / 2 ^ 16 % 8192
    let blockOk := 2 ≤ n ∧ n ≤ 64 ∧ off % 4 = 0 ∧ off + 4 * n ≤ 4096
    if opc = 0x1 then (if n = 0 ∧ off = 0 then some .keyld else none)
    else if opc = 0x2 then
      (if blockOk then some (.encb (BitVec.ofNat 13 off) (BitVec.ofNat 7 n)) else none)
    else if opc = 0x3 then
      (if blockOk then some (.decb (BitVec.ofNat 13 off) (BitVec.ofNat 7 n)) else none)
    else if opc = 0x4 then
      (if n = 0 ∧ ws ≤ 4096 ∧ off ≤ ws ∧ ws - off ≤ 7 then some (.tailx (BitVec.ofNat 13 off))
        else none)
    else if opc = 0x5 then (if n = 0 ∧ off = 0 ∧ ws ≤ 4096 then some .encw else none)
    else if opc = 0x6 then (if n = 0 ∧ off = 0 ∧ ws ≤ 4096 then some .decw else none)
    else if opc = 0x7 then (if n = 0 ∧ off = 0 then some .encs else none)
    else if opc = 0x8 then (if n = 0 ∧ off = 0 then some .decs else none)
    else none

/-- The rows of the opcode map of R84: mnemonic, match, mask. -/
def opcodeMap : List (Mnemonic × Word × Word) :=
  [(.KEYLD, 0x00000001#32, 0xFFFFFFFF#32), (.ENCB, 0x00000002#32, 0xE00080FF#32),
    (.DECB, 0x00000003#32, 0xE00080FF#32), (.TAILX, 0x00000004#32, 0xE000FFFF#32),
    (.ENCW, 0x00000005#32, 0xFFFFFFFF#32), (.DECW, 0x00000006#32, 0xFFFFFFFF#32),
    (.ENCS, 0x00000007#32, 0xFFFFFFFF#32), (.DECS, 0x00000008#32, 0xFFFFFFFF#32)]

/-- `MX` of 41_block_cipher.md R113 on numbers: logical shifts, sums modulo 2^32. -/
def mx (sum y z p e : Nat) (key : List Nat) : Nat :=
  let value1 := (z / 2 ^ 5) ^^^ (y * 2 ^ 2 % 2 ^ 32)
  let value2 := (y / 2 ^ 3) ^^^ (z * 2 ^ 4 % 2 ^ 32)
  let value3 := sum ^^^ y
  let value4 := key.getD ((p % 4) ^^^ e) 0 ^^^ z
  ((value1 + value2) % 2 ^ 32) ^^^ ((value3 + value4) % 2 ^ 32)

/-- The number of `n` bytes, least significant first (20_memory.md R57). -/
def littleEndian (rd : Nat → Byte) (a n : Nat) : Nat :=
  ((List.range n).map fun k => (rd (a + k)).toNat * 2 ^ (8 * k)).sum

/-- The six key-reading commands (60_exceptions.md R183). -/
def readsKey : Instr → Bool
  | .keyld | .tailx _ => false
  | .encb _ _ | .decb _ _ | .encw | .decw | .encs | .decs => true

/-- The error the command word `c` records, by the order of 60_exceptions.md R186, with the causes of
R180 to R184. -/
def firstError (c : Word) (s : State) : ErrCode :=
  match decode c s.wsize with
  | none => .illegalCommand
  | some i =>
    if i = .keyld ∧ s.slen.toNat < 16 then .invalidKey
    else if readsKey i = true ∧ s.keyValid = false then .uninitializedKey
    else if (i = .encs ∨ i = .decs) ∧ s.src.attached = false then .nullInput
    else .none

/-- The encoding of `PHASE` (10_state.md R26). -/
def phaseNumber : Phase → Nat
  | .idle => 0
  | .reading => 1
  | .transforming => 2
  | .writing => 3
  | .done => 4

/-- The error codes (60_exceptions.md R180). -/
def errNumber : ErrCode → Nat
  | .none => 0
  | .invalidKey => 1
  | .nullInput => 2
  | .uninitializedKey => 3
  | .illegalCommand => 4

/-- The number `STATUS` reads as: `KEY_VALID` in bit 0, `PHASE` in 3:1, `ERR` in 6:4 (10_state.md R25). -/
def statusNumber (s : State) : Nat :=
  (if s.keyValid then 1 else 0) + 2 * phaseNumber s.phase + 16 * errNumber s.err

end Sys2Proof.Spec

open Sys2Proof Sys2Proof.Machine

/-! ### Command words (30_encoding.md) -/

/-- Every command, with every operand, is the command its word decodes to (R83, R84). -/
def Obligations.DecodeOfEncode : Prop := ∀ i : Instr, decode (encode i) = .command i

/-- A word that decodes to a command is that command's word: no bit is ignored (R86). -/
def Obligations.EncodeOfDecode : Prop := ∀ (c : Word) (i : Instr), decode c = .command i → encode i = c

/-- R84: a word is the command iff `(c AND mask) = match`. -/
def Obligations.DecodeIsMaskAndMatch : Prop :=
  ∀ m pattern mask, (m, pattern, mask) ∈ Spec.opcodeMap → ∀ c : Word,
    (∃ i, decode c = .command i ∧ i.mnemonic = m) ↔ c &&& mask = pattern

/-- R94: the decoder with the legality check is the algorithm of the spec, on every word. -/
def Obligations.LegalDecodeIsTheSpecsAlgorithm : Prop :=
  ∀ (c : Word) (wsize : BitVec 13), decodeLegal c wsize = Spec.decode c wsize

/-- R85: a reserved opcode raises `IllegalCommandError`, whatever the other bits. -/
def Obligations.ReservedOpcodesRaise : Prop :=
  ∀ (c : Word) (s : State), (c.toNat % 16 = 0 ∨ 9 ≤ c.toNat % 16) →
    runCommand c s = .next { s with phase := .idle, err := .illegalCommand }

/-- R86: a bit that the format requires to be 0 raises `IllegalCommandError`. -/
def Obligations.ReservedBitsRaise : Prop :=
  ∀ (c : Word) (s : State), 1 ≤ c.toNat % 16 → c.toNat % 16 ≤ 8 →
    (c.toNat / 2 ^ 4 % 16 ≠ 0 ∨ c.toNat / 2 ^ 15 % 2 ≠ 0 ∨ c.toNat / 2 ^ 29 ≠ 0 ∨
      (c.toNat % 16 ≠ 2 ∧ c.toNat % 16 ≠ 3 ∧ c.toNat / 2 ^ 8 % 128 ≠ 0) ∨
      (c.toNat % 16 ≠ 2 ∧ c.toNat % 16 ≠ 3 ∧ c.toNat % 16 ≠ 4 ∧ c.toNat / 2 ^ 16 % 8192 ≠ 0)) →
    runCommand c s = .next { s with phase := .idle, err := .illegalCommand }

/-- The example words of R92. -/
def Obligations.ExampleWordsDecode : Prop :=
  decode 0x00000001#32 = .command .keyld ∧
  decode 0x00004002#32 = .command (.encb 0 64) ∧
  decode 0x01000B03#32 = .command (.decb 256 11) ∧
  decode 0x01000004#32 = .command (.tailx 256) ∧
  decode 0x00000005#32 = .command .encw ∧
  decode 0x00000006#32 = .command .decw ∧
  decode 0x00000007#32 = .command .encs ∧
  decode 0x00000008#32 = .command .decs

/-! ### A step -/

/-- A step whose act is the write of a command's word to `CMD` is that command executed, and with a word
that is no command it is the error of that word, the act taken and answered (10_state.md R28,
20_memory.md R68). That the acts are a list in State and that the answer is kept are the model's
choices (log entries 1, 5). -/
def Obligations.StepRunsTheDecodedCommand : Prop :=
  ∀ (s : State) (rest : List HostAct) (c : Word), s.host = .memWrite 0x0000 .w4 c :: rest →
    (∀ i, decode c = .command i → step s = exec i { s with host := rest, reply := .completed }) ∧
    step s = runCommand c { s with host := rest, reply := .completed }

/-- With no act of the host to come, nothing changes (10_state.md R40, 70_reset_and_hazards.md R200; the
step without an act is log entry 6). -/
def Obligations.EngineWaitsForTheHost : Prop := ∀ s : State, s.host = [] → step s = .next s

/-- Every step answers a next state, in which exactly the oldest act is taken: no word, no state and no
act stops the machine, and no act is left out or reordered (60_exceptions.md R184, R185, R187;
20_memory.md R63; that a refused transaction goes on is log entry 2). -/
def Obligations.NothingStopsTheMachine : Prop :=
  ∀ s : State, ∃ t, step s = .next t ∧ t.host = s.host.tail

/-! ### The mixing engine (41_block_cipher.md) -/

/-- R112: the round count, by its formula and by its table. -/
def Obligations.RoundCounts : Prop :=
  (∀ n, 2 ≤ n → rounds n = 6 + 52 / n) ∧
  rounds 2 = 32 ∧ rounds 3 = 23 ∧ rounds 4 = 19 ∧ rounds 5 = 16 ∧ rounds 6 = 14 ∧ rounds 7 = 13 ∧
  rounds 8 = 12 ∧ rounds 9 = 11 ∧ rounds 10 = 11 ∧ rounds 11 = 10 ∧ rounds 12 = 10 ∧
  rounds 13 = 10 ∧
  (∀ n, 14 ≤ n → n ≤ 17 → rounds n = 9) ∧ (∀ n, 18 ≤ n → n ≤ 26 → rounds n = 8) ∧
  (∀ n, 27 ≤ n → n ≤ 52 → rounds n = 7) ∧ (∀ n, 53 ≤ n → n ≤ 64 → rounds n = 6)

/-- R113: the mixing value, on numbers. -/
def Obligations.MixingValue : Prop :=
  ∀ (sum y z : Word) (p : Nat) (e : BitVec 2) (key : Key),
    (mx sum y z p e key).toNat =
      Spec.mx sum.toNat y.toNat z.toNat p e.toNat
        [key.k0.toNat, key.k1.toNat, key.k2.toNat, key.k3.toNat]

/-- R118: round `r` of `k` rounds from `sum = 0` uses `r * DELTA`. -/
def Obligations.SumSchedule : Prop :=
  ∀ (key : Key) (n k : Nat) (st : List Word × Word),
    encRounds key n k 0 st =
      (List.range k).foldl
        (fun st r => encRound key (BitVec.ofNat 32 (r + 1) * 0x9E3779B9#32) n st) st

/-- 10_state.md R34: after any number of rounds and any number of positions of the next one, the cursor
is the current word `(p - 1) mod N`. -/
def Obligations.CursorIsThePreviousWord : Prop :=
  ∀ (key : Key) (sum : Word) (n r p : Nat) (data : List Word),
    2 ≤ n → data.length = n → p ≤ n →
    let st := (List.range p).foldl (encPos key sum n) (encRounds key n r 0 (data, word data (n - 1)))
    st.2 = word st.1 ((p + n - 1) % n)

/-- R120: `MixDec` undoes `MixEnc`, and `MixEnc` undoes `MixDec`, on every block of every length `N ≥ 2`
under every key. -/
def Obligations.MixDecAndMixEncAreInverse : Prop :=
  ∀ (n : Nat) (two_le : 2 ≤ n) (data : List Word) (key : Key), data.length = n →
    mixDec (mixEnc data n two_le key) n two_le key = data ∧
    mixEnc (mixDec data n two_le key) n two_le key = data

/-! ### `KEYLD` (40_key_derivation.md) -/

/-- 20_memory.md R56: a secret long enough gives the four little-endian words, and only `KEY`,
`KEY_VALID`, `ERR` and `PHASE` are written. -/
def Obligations.KeyldDerivesTheKey : Prop :=
  ∀ s : State, 16 ≤ s.slen.toNat →
    ∃ t, exec .keyld s = .next t ∧
      (∀ j, j < 4 → (t.key.get (BitVec.ofNat 2 j)).toNat =
        (s.secretRead (4 * j)).toNat + 2 ^ 8 * (s.secretRead (4 * j + 1)).toNat +
          2 ^ 16 * (s.secretRead (4 * j + 2)).toNat + 2 ^ 24 * (s.secretRead (4 * j + 3)).toNat) ∧
      t = { s with phase := .idle, err := .none, key := t.key, keyValid := true }

/-- R101: a secret of fewer than 16 bytes is `InvalidKeyError`; the old key stays in force. -/
def Obligations.KeyldRejectsAShortSecret : Prop :=
  ∀ s : State, s.slen.toNat < 16 →
    exec .keyld s = .next { s with phase := .idle, err := .invalidKey }

/-- R102: two secrets of at least 16 bytes that agree in their first 16 give the same key. -/
def Obligations.KeyldIgnoresBytesBeyondTheSixteenth : Prop :=
  ∀ s s' : State, 16 ≤ s.slen.toNat → 16 ≤ s'.slen.toNat →
    (∀ k, k < 16 → s'.secretRead k = s.secretRead k) →
    ∃ t t', exec .keyld s = .next t ∧ exec .keyld s' = .next t' ∧ t'.key = t.key

/-! ### `ENCB`, `DECB` (41_block_cipher.md) -/

/-- R121: the words of the block become `MixEnc` of them; no byte outside the block and nothing but
`WBUF`, `ERR`, `PHASE` and the working registers of R33 (log entry 4) is written. -/
def Obligations.EncbMixesTheBlock : Prop :=
  ∀ (off : BitVec 13) (n : BitVec 7) (s : State) (two_le : 2 ≤ n.toNat),
    n.toNat ≤ 64 → off.toNat % 4 = 0 → off.toNat + 4 * n.toNat ≤ 4096 → s.keyValid = true →
    ∃ t, exec (.encb off n) s = .next t ∧
      (∀ p, p < n.toNat → t.ldW (off.toNat + 4 * p) =
        word (mixEnc (s.loadBlock off.toNat n.toNat) n.toNat two_le s.key) p) ∧
      (∀ a, (a < off.toNat ∨ off.toNat + 4 * n.toNat ≤ a) → t.wbufRead a = s.wbufRead a) ∧
      t = { s with phase := .idle, err := .none, wbuf := t.wbuf, mix := t.mix, draws := t.draws }

/-- R122: the same with `MixDec`. -/
def Obligations.DecbUnmixesTheBlock : Prop :=
  ∀ (off : BitVec 13) (n : BitVec 7) (s : State) (two_le : 2 ≤ n.toNat),
    n.toNat ≤ 64 → off.toNat % 4 = 0 → off.toNat + 4 * n.toNat ≤ 4096 → s.keyValid = true →
    ∃ t, exec (.decb off n) s = .next t ∧
      (∀ p, p < n.toNat → t.ldW (off.toNat + 4 * p) =
        word (mixDec (s.loadBlock off.toNat n.toNat) n.toNat two_le s.key) p) ∧
      (∀ a, (a < off.toNat ∨ off.toNat + 4 * n.toNat ≤ a) → t.wbufRead a = s.wbufRead a) ∧
      t = { s with phase := .idle, err := .none, wbuf := t.wbuf, mix := t.mix, draws := t.draws }

/-- 30_encoding.md R87: a block command raises `IllegalCommandError` iff its operands are not legal. -/
def Obligations.BlockOperandLegality : Prop :=
  ∀ (off : BitVec 13) (n : BitVec 7) (i : Instr) (s t : State),
    (i = .encb off n ∨ i = .decb off n) → exec i s = .next t →
    (t.err = .illegalCommand ↔
      ¬ (2 ≤ n.toNat ∧ n.toNat ≤ 64 ∧ off.toNat % 4 = 0 ∧ off.toNat + 4 * n.toNat ≤ 4096))

/-- R122, R120: with one key, `DECB` after `ENCB` of the same operands, and `ENCB` after `DECB`, leave
every byte of `WBUF` as it was. -/
def Obligations.BlockRoundTrip : Prop :=
  ∀ (off : BitVec 13) (n : BitVec 7) (s t u : State),
    (exec (.encb off n) s = .next t ∧ exec (.decb off n) t = .next u ∨
      exec (.decb off n) s = .next t ∧ exec (.encb off n) t = .next u) →
    ∀ a, u.wbufRead a = s.wbufRead a

/-! ### `TAILX` (42_tail_xor.md) -/

/-- R137: the seven masks. -/
def Obligations.TailMasks : Prop :=
  mask 1 ⟨by decide, by decide⟩ = 0xB6#8 ∧ mask 2 ⟨by decide, by decide⟩ = 0xB5#8 ∧
  mask 3 ⟨by decide, by decide⟩ = 0xB4#8 ∧ mask 4 ⟨by decide, by decide⟩ = 0xB3#8 ∧
  mask 5 ⟨by decide, by decide⟩ = 0xB2#8 ∧ mask 6 ⟨by decide, by decide⟩ = 0xB1#8 ∧
  mask 7 ⟨by decide, by decide⟩ = 0xB0#8

/-- R138: bytes `start` to `WSIZE - 1` are XORed with their masks; no other byte and nothing but `WBUF`,
`ERR`, `PHASE` and the working registers of 10_state.md R35 (log entry 4) is written. No key is
needed. -/
def Obligations.TailxXorsTheTail : Prop :=
  ∀ (start : BitVec 13) (s : State),
    s.wsize.toNat ≤ 4096 → start.toNat ≤ s.wsize.toNat → s.wsize.toNat - start.toNat ≤ 7 →
    ∃ t, exec (.tailx start) s = .next t ∧
      (∀ i, start.toNat ≤ i → i < s.wsize.toNat →
        t.wbufRead i = s.wbufRead i ^^^ (BitVec.ofNat 8 (s.wsize.toNat - i) ^^^ 0xB7#8)) ∧
      (∀ i, (i < start.toNat ∨ s.wsize.toNat ≤ i) → t.wbufRead i = s.wbufRead i) ∧
      t = { s with phase := .idle, err := .none, wbuf := t.wbuf, chk := t.chk, draws := t.draws }

/-- 30_encoding.md R88: `TAILX` raises `IllegalCommandError` iff its operand is not legal. -/
def Obligations.TailOperandLegality : Prop :=
  ∀ (start : BitVec 13) (s t : State), exec (.tailx start) s = .next t →
    (t.err = .illegalCommand ↔
      ¬ (s.wsize.toNat ≤ 4096 ∧ start.toNat ≤ s.wsize.toNat ∧ s.wsize.toNat - start.toNat ≤ 7))

/-- R136, R138: `TAILX` issued twice restores the bytes. -/
def Obligations.TailxTwiceRestores : Prop :=
  ∀ (start : BitVec 13) (s t u : State),
    exec (.tailx start) s = .next t → exec (.tailx start) t = .next u →
    ∀ a, u.wbufRead a = s.wbufRead a

/-! ### The window (43_window_chunker.md) -/

/-- R145, R149: the partition of every window of at most 4096 bytes: its numbers, their ranges, and that
the three ranges cover the window. -/
def Obligations.PartitionCutsTheWindow : Prop :=
  ∀ size, size ≤ 4096 →
    (partition size).c = size / 256 ∧ (partition size).c ≤ 16 ∧
    (partition size).r = size - 256 * (partition size).c ∧ (partition size).r ≤ 255 ∧
    (partition size).l = (partition size).r / 4 ∧ (partition size).l ≤ 63 ∧
    ((partition size).l > 1 → (partition size).p = (partition size).l ∧
      (partition size).t = (partition size).r - 4 * (partition size).l ∧ (partition size).t ≤ 3) ∧
    ((partition size).l ≤ 1 → (partition size).p = 0 ∧ (partition size).t = (partition size).r ∧
      (partition size).t ≤ 7) ∧
    (partition size).tpos = 256 * (partition size).c + 4 * (partition size).p ∧
    (partition size).tpos + (partition size).t = size

/-- R151, R150, R146 to R148: every full block and the partial block become `MixEnc` of them, every
tail byte is XORed with its mask; no byte at `WSIZE` or above and nothing but `WBUF`, `ERR`, `PHASE` and
the working registers (log entry 4) is written. -/
def Obligations.EncwEncryptsTheWindow : Prop :=
  ∀ s : State, s.wsize.toNat ≤ 4096 → s.keyValid = true →
    ∃ t, exec .encw s = .next t ∧
      (∀ c p, c < (partition s.wsize.toNat).c → p < 64 → t.ldW (256 * c + 4 * p) =
        word (mixEnc (s.loadBlock (256 * c) 64) 64 (by decide) s.key) p) ∧
      (∀ (two_le : 2 ≤ (partition s.wsize.toNat).p) (p : Nat), p < (partition s.wsize.toNat).p →
        t.ldW (256 * (partition s.wsize.toNat).c + 4 * p) =
          word (mixEnc (s.loadBlock (256 * (partition s.wsize.toNat).c)
            (partition s.wsize.toNat).p) (partition s.wsize.toNat).p two_le s.key) p) ∧
      (∀ i, (partition s.wsize.toNat).tpos ≤ i → i < s.wsize.toNat →
        t.wbufRead i = s.wbufRead i ^^^ (BitVec.ofNat 8 (s.wsize.toNat - i) ^^^ 0xB7#8)) ∧
      (∀ i, s.wsize.toNat ≤ i → t.wbufRead i = s.wbufRead i) ∧
      t = { s with
        phase := .idle, err := .none, wbuf := t.wbuf, mix := t.mix, chk := t.chk, draws := t.draws }

/-- R152: the same with `MixDec`. -/
def Obligations.DecwDecryptsTheWindow : Prop :=
  ∀ s : State, s.wsize.toNat ≤ 4096 → s.keyValid = true →
    ∃ t, exec .decw s = .next t ∧
      (∀ c p, c < (partition s.wsize.toNat).c → p < 64 → t.ldW (256 * c + 4 * p) =
        word (mixDec (s.loadBlock (256 * c) 64) 64 (by decide) s.key) p) ∧
      (∀ (two_le : 2 ≤ (partition s.wsize.toNat).p) (p : Nat), p < (partition s.wsize.toNat).p →
        t.ldW (256 * (partition s.wsize.toNat).c + 4 * p) =
          word (mixDec (s.loadBlock (256 * (partition s.wsize.toNat).c)
            (partition s.wsize.toNat).p) (partition s.wsize.toNat).p two_le s.key) p) ∧
      (∀ i, (partition s.wsize.toNat).tpos ≤ i → i < s.wsize.toNat →
        t.wbufRead i = s.wbufRead i ^^^ (BitVec.ofNat 8 (s.wsize.toNat - i) ^^^ 0xB7#8)) ∧
      (∀ i, s.wsize.toNat ≤ i → t.wbufRead i = s.wbufRead i) ∧
      t = { s with
        phase := .idle, err := .none, wbuf := t.wbuf, mix := t.mix, chk := t.chk, draws := t.draws }

/-- 30_encoding.md R89: `ENCW` and `DECW` raise `IllegalCommandError` iff `WSIZE > 4096`; `ENCS`,
`DECS` and `KEYLD` never do. -/
def Obligations.WindowLegality : Prop :=
  ∀ (i : Instr) (s t : State), exec i s = .next t →
    ((i = .encw ∨ i = .decw) → (t.err = .illegalCommand ↔ ¬ s.wsize.toNat ≤ 4096)) ∧
    ((i = .encs ∨ i = .decs ∨ i = .keyld) → t.err ≠ .illegalCommand)

/-- R153 (b): `DECW` after `ENCW`, and `ENCW` after `DECW`, leave every byte of `WBUF` as it was. -/
def Obligations.WindowRoundTrip : Prop :=
  ∀ s t u : State,
    (exec .encw s = .next t ∧ exec .decw t = .next u ∨
      exec .decw s = .next t ∧ exec .encw t = .next u) →
    ∀ a, u.wbufRead a = s.wbufRead a

/-- 10_state.md R39: the transformed window is a function of the direction, `KEY`, `WSIZE` and the
window's bytes alone. -/
def Obligations.WindowDependsOnItsBytesAlone : Prop :=
  ∀ (i : Instr) (s s' : State), (i = .encw ∨ i = .decw) →
    s.wsize.toNat ≤ 4096 → s.keyValid = true → s'.keyValid = true →
    s'.key = s.key → s'.wsize = s.wsize →
    (∀ a, a < s.wsize.toNat → s'.wbufRead a = s.wbufRead a) →
    ∃ t t', exec i s = .next t ∧ exec i s' = .next t' ∧
      ∀ a, a < s.wsize.toNat → t'.wbufRead a = t.wbufRead a

/-- R152: for `WSIZE ≤ 7`, `DECW` and `ENCW` do the same thing. The outcomes are equal as a whole, the
working registers' unspecified values included: that these agree is the model's choice, for log entry 4
draws them from a counter. -/
def Obligations.SmallWindowsHaveNoDirection : Prop :=
  ∀ s : State, s.wsize.toNat ≤ 7 → exec .decw s = exec .encw s

/-! ### The stream (44_stream_codec.md) -/

/-- R163, R162, R167: `ENCS` appends to `DST` the source's remaining bytes encrypted, as one partition of
the whole sequence; it leaves the source consumed, `WSIZE` the last window's length, `WBUF` the last
window's bytes, above them the bytes of the window before the last if there was one and else what was
there before (`streamBuffer`), and `PHASE` `Done`; beside them only `ERR` and the working registers (log
entry 4) are written. -/
def Obligations.EncsEncryptsTheStream : Prop :=
  ∀ s : State, s.keyValid = true → s.src.attached = true → s.src.cursor ≤ s.src.bytes.length →
    ∃ t, exec .encs s = .next t ∧
      t.dst = s.dst ++ wholeImage .encrypt s.key s.src.pending ∧
      t.wsize.toNat = lastWindow (s.src.bytes.length - s.src.cursor) ∧
      (∀ a, t.wbufRead a = streamBuffer s.wbufRead (wholeImage .encrypt s.key s.src.pending) a) ∧
      t = { s with
        phase := .done, err := .none, wsize := t.wsize, wbuf := t.wbuf
        src := { s.src with cursor := s.src.bytes.length }, dst := t.dst
        mix := t.mix, chk := t.chk, draws := t.draws }

/-- R164: the same in the other direction, `WBUF` as there. -/
def Obligations.DecsDecryptsTheStream : Prop :=
  ∀ s : State, s.keyValid = true → s.src.attached = true → s.src.cursor ≤ s.src.bytes.length →
    ∃ t, exec .decs s = .next t ∧
      t.dst = s.dst ++ wholeImage .decrypt s.key s.src.pending ∧
      t.wsize.toNat = lastWindow (s.src.bytes.length - s.src.cursor) ∧
      (∀ a, t.wbufRead a = streamBuffer s.wbufRead (wholeImage .decrypt s.key s.src.pending) a) ∧
      t = { s with
        phase := .done, err := .none, wsize := t.wsize, wbuf := t.wbuf
        src := { s.src with cursor := s.src.bytes.length }, dst := t.dst
        mix := t.mix, chk := t.chk, draws := t.draws }

/-- R166: the output has the source's length, and `DECS` over the output of `ENCS` under the same key
gives the source. The other way round, which R166 does not state, is derived: both cut the same windows
(R161) and each window is inverted either way (43_window_chunker.md R153). -/
def Obligations.StreamRoundTrip : Prop :=
  ∀ (first second : Instr) (s t : State),
    (first = .encs ∧ second = .decs ∨ first = .decs ∧ second = .encs) →
    s.keyValid = true → s.src.attached = true → exec first s = .next t →
    (t.dst.drop s.dst.length).length = s.src.bytes.length - s.src.cursor ∧
    ∃ u, exec second { t with
        src := { attached := true, bytes := t.dst.drop s.dst.length, cursor := 0 } } = .next u ∧
      u.dst.drop t.dst.length = s.src.pending

/-! ### Errors and the whole machine (60_exceptions.md, 10_state.md) -/

/-- R185: a command word either raises an error, and then the state is the one before it with
`PHASE = Idle` and `ERR = code`, or completes with `ERR = 0`. -/
def Obligations.ErrorsChangeErrAndPhaseOnly : Prop :=
  ∀ (c : Word) (s : State),
    (∃ e, e ≠ .none ∧ runCommand c s = .next { s with phase := .idle, err := e }) ∨
    (∃ t, runCommand c s = .next t ∧ t.err = .none)

/-- R186: a command word records the first error that applies, in the order of the rule, and none if none
applies. -/
def Obligations.ErrorPriority : Prop :=
  ∀ (c : Word) (s : State), ∃ t, runCommand c s = .next t ∧ t.err = Spec.firstError c s

/-- R180 to R184: the errors each command can record. -/
def Obligations.ErrorsOfEachCommand : Prop :=
  ∀ (i : Instr) (s t : State), exec i s = .next t →
    (t.err = .invalidKey → i = .keyld ∧ s.slen.toNat < 16) ∧
    (t.err = .nullInput → (i = .encs ∨ i = .decs) ∧ s.src.attached = false) ∧
    (t.err = .uninitializedKey →
      s.keyValid = false ∧ i ≠ .keyld ∧ ∀ start, i ≠ .tailx start) ∧
    (t.err = .illegalCommand → legal i s.wsize = false)

/-- 10_state.md R26: a successful `ENCS` or `DECS` ends with `PHASE = Done`, everything else with
`PHASE = Idle`. -/
def Obligations.PhaseAfterACommand : Prop :=
  ∀ (i : Instr) (s t : State), exec i s = .next t →
    (t.phase = .idle ∨ t.phase = .done) ∧
    (t.phase = .done ↔ (i = .encs ∨ i = .decs) ∧ t.err = .none)

/-- 10_state.md R23: no command but `KEYLD` changes `KEY` or `KEY_VALID`. -/
def Obligations.OnlyKeyldWritesTheKey : Prop :=
  ∀ (i : Instr) (s t : State), i ≠ .keyld → exec i s = .next t →
    t.key = s.key ∧ t.keyValid = s.keyValid

/-- 10_state.md R22, R21: over a whole step, `KEY` and `KEY_VALID` change by `KEYLD` and by reset alone,
and `KEY_VALID` is cleared by reset alone. -/
def Obligations.OnlyKeyldAndResetChangeTheKey : Prop :=
  ∀ s t : State, step s = .next t → s.host.head? ≠ some .reset →
    (s.keyValid = true → t.keyValid = true) ∧
    (s.host.head? ≠ some (commandAct (encode .keyld)) →
      t.key = s.key ∧ t.keyValid = s.keyValid)

/-- 10_state.md R30, R31, 70_reset_and_hazards.md R213: no command writes `SECRET` or `SLEN`; none but a
stream command writes `WSIZE`, `SRC` or `DST` (R29, R36, R37); none touches the host's side. -/
def Obligations.CommandsLeaveTheRestAlone : Prop :=
  ∀ (i : Instr) (s t : State), exec i s = .next t →
    t.secret = s.secret ∧ t.slen = s.slen ∧ t.host = s.host ∧ t.reply = s.reply ∧
    t.epoch = s.epoch ∧
    (i ≠ .encs → i ≠ .decs → t.wsize = s.wsize ∧ t.src = s.src ∧ t.dst = s.dst)

/-- Every step keeps the invariant: both buffers canonical and inside their sizes, the source's cursor
inside its bytes, `PHASE` at rest, `Done` only after a success with a key, an underived key at its reset
value (10_state.md R22, R26, R31, R32, R36, R40). -/
def Obligations.StepKeepsTheInvariant : Prop :=
  ∀ s t : State, s.Inv → step s = .next t → t.Inv

/-- Reset meets the invariant. -/
def Obligations.ResetMeetsTheInvariant : Prop := State.reset.Inv

/-! ### Reset (10_state.md R40, 70_reset_and_hazards.md R200) -/

/-- The values of R40 that the spec gives, at reset and after the reset input in any state; the host's
acts to come stay (log entry 12), the buffers list no byte (log entry 3). -/
def Obligations.ResetValues : Prop :=
  ∀ (s : State) (rest : List HostAct), s.host = .reset :: rest →
    ∃ t, step s = .next t ∧ t.host = rest ∧
      ∀ r : State, (r = t ∨ r = State.reset) →
        r.key = { k0 := 0, k1 := 0, k2 := 0, k3 := 0 } ∧ r.keyValid = false ∧ r.phase = .idle ∧
        r.err = .none ∧ r.wsize = 0 ∧ r.slen = 0 ∧ r.secret = [] ∧ r.wbuf = [] ∧
        r.src = { attached := false, bytes := [], cursor := 0 } ∧ r.dst = [] ∧
        r.status = 0x00000000#32 ∧ r.memRead 0x0000 .w4 = some 0x00000000#32

/-! ### The host's transactions (20_memory.md) -/

/-- 10_state.md R25: `STATUS` as read, and a write to it is ignored. -/
def Obligations.StatusRegister : Prop :=
  ∀ s : State,
    (∃ v, s.memRead 0x0004 .w4 = some v ∧ v.toNat = Spec.statusNumber s) ∧
    (∀ (v : Word) (rest : List HostAct), s.host = .memWrite 0x0004 .w4 v :: rest →
      step s = .next { s with host := rest, reply := .completed })

/-- R51, R57: what each row of the map reads as, the reserved rows apart (they refuse a read,
`RefusedTransactionsChangeNothing`); `STATUS` as 10_state.md R25 says, bytes little-endian. -/
def Obligations.HostReadsTheMap : Prop :=
  ∀ s : State,
    s.memRead 0x0000 .w4 = some 0 ∧
    (∃ v, s.memRead 0x0004 .w4 = some v ∧ v.toNat = Spec.statusNumber s) ∧
    (∃ v, s.memRead 0x0008 .w4 = some v ∧ v.toNat = s.wsize.toNat) ∧
    s.memRead 0x000C .w4 = some s.slen ∧
    s.memRead 0x0010 .w4 = some s.key.k0 ∧ s.memRead 0x0014 .w4 = some s.key.k1 ∧
    s.memRead 0x0018 .w4 = some s.key.k2 ∧ s.memRead 0x001C .w4 = some s.key.k3 ∧
    (∀ (k : Nat) (n : Width), k < 64 → k % n.bytes = 0 →
      ∃ v, s.memRead (BitVec.ofNat 13 (0x0040 + k)) n = some v ∧
        v.toNat = Spec.littleEndian s.secretRead k n.bytes) ∧
    (∀ (i : Nat) (n : Width), i < 4096 → i % n.bytes = 0 →
      ∃ v, s.memRead (BitVec.ofNat 13 (0x1000 + i)) n = some v ∧
        v.toNat = Spec.littleEndian s.wbufRead i n.bytes)

/-- R60: a read is answered and has no side effect. -/
def Obligations.HostReadsChangeNothing : Prop :=
  ∀ (s t : State) (addr : BitVec 13) (n : Width) (rest : List HostAct),
    s.host = .memRead addr n :: rest → step s = .next t →
    t = { s with host := rest, reply := t.reply } ∧
    ∀ v, s.memRead addr n = some v → t.reply = .data v

/-- R57: a write to a buffer sets its `n` bytes to the bytes of the value, least significant first, and
nothing else. -/
def Obligations.HostWritesTheBuffers : Prop :=
  ∀ (s : State) (n : Width) (v : Word) (rest : List HostAct),
    (∀ i, i < 4096 → i % n.bytes = 0 →
      s.host = .memWrite (BitVec.ofNat 13 (0x1000 + i)) n v :: rest →
      ∃ t, step s = .next t ∧
        (∀ k, k < n.bytes → t.wbufRead (i + k) = v.extractLsb' (8 * k) 8) ∧
        (∀ a, (a < i ∨ i + n.bytes ≤ a) → t.wbufRead a = s.wbufRead a) ∧
        t = { s with host := rest, reply := .completed, wbuf := t.wbuf }) ∧
    (∀ i, i < 64 → i % n.bytes = 0 →
      s.host = .memWrite (BitVec.ofNat 13 (0x0040 + i)) n v :: rest →
      ∃ t, step s = .next t ∧
        (∀ k, k < n.bytes → t.secretRead (i + k) = v.extractLsb' (8 * k) 8) ∧
        (∀ a, (a < i ∨ i + n.bytes ≤ a) → t.secretRead a = s.secretRead a) ∧
        t = { s with host := rest, reply := .completed, secret := t.secret })

/-- R54 (b), (c): `WSIZE` keeps bits 12:0, `SLEN` all, a write to `KEY0..KEY3` changes nothing. -/
def Obligations.HostWritesTheRegisters : Prop :=
  ∀ (s : State) (v : Word) (rest : List HostAct),
    (s.host = .memWrite 0x0008 .w4 v :: rest →
      ∃ t, step s = .next t ∧ t.wsize.toNat = v.toNat % 8192 ∧
        t = { s with host := rest, reply := .completed, wsize := t.wsize }) ∧
    (s.host = .memWrite 0x000C .w4 v :: rest →
      step s = .next { s with host := rest, reply := .completed, slen := v }) ∧
    (∀ j, j < 4 → s.host = .memWrite (BitVec.ofNat 13 (0x0010 + 4 * j)) .w4 v :: rest →
      step s = .next { s with host := rest, reply := .completed })

/-- R53, R54 (a), 60_exceptions.md R188: a misaligned transaction, one of a width its row does not
accept, and one in a reserved range is refused: no state changes, and the bus reports an error (the
answer `busError` of a next state is the model's, log entry 2). No other is: every other read is answered
with data, and every other write, one to `CMD` included, is answered `completed` (the answers are kept by
the model's choice, log entry 5). -/
def Obligations.RefusedTransactionsChangeNothing : Prop :=
  ∀ (s : State) (addr : BitVec 13) (n : Width) (v : Word) (rest : List HostAct),
    let refused := addr.toNat % n.bytes ≠ 0 ∨ (addr.toNat < 0x0020 ∧ n ≠ .w4) ∨
      (0x0020 ≤ addr.toNat ∧ addr.toNat < 0x0040) ∨ (0x0080 ≤ addr.toNat ∧ addr.toNat < 0x1000)
    (s.memRead addr n = none ↔ refused) ∧
    (refused → (s.host = .memRead addr n :: rest ∨ s.host = .memWrite addr n v :: rest) →
      step s = .next { s with host := rest, reply := .busError }) ∧
    (¬ refused → s.host = .memRead addr n :: rest →
      ∃ d, s.memRead addr n = some d ∧ step s = .next { s with host := rest, reply := .data d }) ∧
    (¬ refused → s.host = .memWrite addr n v :: rest →
      ∃ t, step s = .next t ∧ t.host = rest ∧ t.reply = .completed)

/-- 30_encoding.md R93: `ATTACH`, `DETACH` and `DRAIN`. -/
def Obligations.PortActs : Prop :=
  ∀ (s : State) (bytes : List Byte) (rest : List HostAct),
    (s.host = .attach bytes :: rest → step s = .next { s with
      host := rest, reply := .completed, src := { attached := true, bytes, cursor := 0 } }) ∧
    (s.host = .detach :: rest → step s = .next { s with
      host := rest, reply := .completed, src := { s.src with attached := false } }) ∧
    (s.host = .drain :: rest → step s = .next { s with
      host := rest, reply := .drained s.dst, dst := [] })
end

