-- ==== Sys2Proof/Laws/State.lean ====
section
/-! SUPPORT. One lemma per field per update of the state, true by rfl. -/

namespace Sys2Proof.Machine

/-! ### `State.wbufWrite` -/

@[simp] theorem State.wbufWrite_key (s : State) (i : Nat) (b : Byte) :
    (s.wbufWrite i b).key = s.key := rfl
@[simp] theorem State.wbufWrite_keyValid (s : State) (i : Nat) (b : Byte) :
    (s.wbufWrite i b).keyValid = s.keyValid := rfl
@[simp] theorem State.wbufWrite_phase (s : State) (i : Nat) (b : Byte) :
    (s.wbufWrite i b).phase = s.phase := rfl
@[simp] theorem State.wbufWrite_err (s : State) (i : Nat) (b : Byte) :
    (s.wbufWrite i b).err = s.err := rfl
@[simp] theorem State.wbufWrite_wsize (s : State) (i : Nat) (b : Byte) :
    (s.wbufWrite i b).wsize = s.wsize := rfl
@[simp] theorem State.wbufWrite_slen (s : State) (i : Nat) (b : Byte) :
    (s.wbufWrite i b).slen = s.slen := rfl
@[simp] theorem State.wbufWrite_secret (s : State) (i : Nat) (b : Byte) :
    (s.wbufWrite i b).secret = s.secret := rfl
@[simp] theorem State.wbufWrite_wbuf (s : State) (i : Nat) (b : Byte) :
    (s.wbufWrite i b).wbuf = s.wbuf.write i b := rfl
@[simp] theorem State.wbufWrite_src (s : State) (i : Nat) (b : Byte) :
    (s.wbufWrite i b).src = s.src := rfl
@[simp] theorem State.wbufWrite_dst (s : State) (i : Nat) (b : Byte) :
    (s.wbufWrite i b).dst = s.dst := rfl
@[simp] theorem State.wbufWrite_mix (s : State) (i : Nat) (b : Byte) :
    (s.wbufWrite i b).mix = s.mix := rfl
@[simp] theorem State.wbufWrite_chk (s : State) (i : Nat) (b : Byte) :
    (s.wbufWrite i b).chk = s.chk := rfl
@[simp] theorem State.wbufWrite_host (s : State) (i : Nat) (b : Byte) :
    (s.wbufWrite i b).host = s.host := rfl
@[simp] theorem State.wbufWrite_reply (s : State) (i : Nat) (b : Byte) :
    (s.wbufWrite i b).reply = s.reply := rfl
@[simp] theorem State.wbufWrite_epoch (s : State) (i : Nat) (b : Byte) :
    (s.wbufWrite i b).epoch = s.epoch := rfl
@[simp] theorem State.wbufWrite_draws (s : State) (i : Nat) (b : Byte) :
    (s.wbufWrite i b).draws = s.draws := rfl

/-! ### `State.secretWrite` -/

@[simp] theorem State.secretWrite_key (s : State) (k : Nat) (b : Byte) :
    (s.secretWrite k b).key = s.key := rfl
@[simp] theorem State.secretWrite_keyValid (s : State) (k : Nat) (b : Byte) :
    (s.secretWrite k b).keyValid = s.keyValid := rfl
@[simp] theorem State.secretWrite_phase (s : State) (k : Nat) (b : Byte) :
    (s.secretWrite k b).phase = s.phase := rfl
@[simp] theorem State.secretWrite_err (s : State) (k : Nat) (b : Byte) :
    (s.secretWrite k b).err = s.err := rfl
@[simp] theorem State.secretWrite_wsize (s : State) (k : Nat) (b : Byte) :
    (s.secretWrite k b).wsize = s.wsize := rfl
@[simp] theorem State.secretWrite_slen (s : State) (k : Nat) (b : Byte) :
    (s.secretWrite k b).slen = s.slen := rfl
@[simp] theorem State.secretWrite_secret (s : State) (k : Nat) (b : Byte) :
    (s.secretWrite k b).secret = s.secret.write k b := rfl
@[simp] theorem State.secretWrite_wbuf (s : State) (k : Nat) (b : Byte) :
    (s.secretWrite k b).wbuf = s.wbuf := rfl
@[simp] theorem State.secretWrite_src (s : State) (k : Nat) (b : Byte) :
    (s.secretWrite k b).src = s.src := rfl
@[simp] theorem State.secretWrite_dst (s : State) (k : Nat) (b : Byte) :
    (s.secretWrite k b).dst = s.dst := rfl
@[simp] theorem State.secretWrite_mix (s : State) (k : Nat) (b : Byte) :
    (s.secretWrite k b).mix = s.mix := rfl
@[simp] theorem State.secretWrite_chk (s : State) (k : Nat) (b : Byte) :
    (s.secretWrite k b).chk = s.chk := rfl
@[simp] theorem State.secretWrite_host (s : State) (k : Nat) (b : Byte) :
    (s.secretWrite k b).host = s.host := rfl
@[simp] theorem State.secretWrite_reply (s : State) (k : Nat) (b : Byte) :
    (s.secretWrite k b).reply = s.reply := rfl
@[simp] theorem State.secretWrite_epoch (s : State) (k : Nat) (b : Byte) :
    (s.secretWrite k b).epoch = s.epoch := rfl
@[simp] theorem State.secretWrite_draws (s : State) (k : Nat) (b : Byte) :
    (s.secretWrite k b).draws = s.draws := rfl

/-! ### `State.setPhase` -/

@[simp] theorem State.setPhase_key (s : State) (p : Phase) :
    (s.setPhase p).key = s.key := rfl
@[simp] theorem State.setPhase_keyValid (s : State) (p : Phase) :
    (s.setPhase p).keyValid = s.keyValid := rfl
@[simp] theorem State.setPhase_phase (s : State) (p : Phase) :
    (s.setPhase p).phase = p := rfl
@[simp] theorem State.setPhase_err (s : State) (p : Phase) :
    (s.setPhase p).err = s.err := rfl
@[simp] theorem State.setPhase_wsize (s : State) (p : Phase) :
    (s.setPhase p).wsize = s.wsize := rfl
@[simp] theorem State.setPhase_slen (s : State) (p : Phase) :
    (s.setPhase p).slen = s.slen := rfl
@[simp] theorem State.setPhase_secret (s : State) (p : Phase) :
    (s.setPhase p).secret = s.secret := rfl
@[simp] theorem State.setPhase_wbuf (s : State) (p : Phase) :
    (s.setPhase p).wbuf = s.wbuf := rfl
@[simp] theorem State.setPhase_src (s : State) (p : Phase) :
    (s.setPhase p).src = s.src := rfl
@[simp] theorem State.setPhase_dst (s : State) (p : Phase) :
    (s.setPhase p).dst = s.dst := rfl
@[simp] theorem State.setPhase_mix (s : State) (p : Phase) :
    (s.setPhase p).mix = s.mix := rfl
@[simp] theorem State.setPhase_chk (s : State) (p : Phase) :
    (s.setPhase p).chk = s.chk := rfl
@[simp] theorem State.setPhase_host (s : State) (p : Phase) :
    (s.setPhase p).host = s.host := rfl
@[simp] theorem State.setPhase_reply (s : State) (p : Phase) :
    (s.setPhase p).reply = s.reply := rfl
@[simp] theorem State.setPhase_epoch (s : State) (p : Phase) :
    (s.setPhase p).epoch = s.epoch := rfl
@[simp] theorem State.setPhase_draws (s : State) (p : Phase) :
    (s.setPhase p).draws = s.draws := rfl

/-! ### `State.begin` -/

@[simp] theorem State.begin_key (s : State) :
    (s.begin).key = s.key := rfl
@[simp] theorem State.begin_keyValid (s : State) :
    (s.begin).keyValid = s.keyValid := rfl
@[simp] theorem State.begin_phase (s : State) :
    (s.begin).phase = .idle := rfl
@[simp] theorem State.begin_err (s : State) :
    (s.begin).err = s.err := rfl
@[simp] theorem State.begin_wsize (s : State) :
    (s.begin).wsize = s.wsize := rfl
@[simp] theorem State.begin_slen (s : State) :
    (s.begin).slen = s.slen := rfl
@[simp] theorem State.begin_secret (s : State) :
    (s.begin).secret = s.secret := rfl
@[simp] theorem State.begin_wbuf (s : State) :
    (s.begin).wbuf = s.wbuf := rfl
@[simp] theorem State.begin_src (s : State) :
    (s.begin).src = s.src := rfl
@[simp] theorem State.begin_dst (s : State) :
    (s.begin).dst = s.dst := rfl
@[simp] theorem State.begin_mix (s : State) :
    (s.begin).mix = s.mix := rfl
@[simp] theorem State.begin_chk (s : State) :
    (s.begin).chk = s.chk := rfl
@[simp] theorem State.begin_host (s : State) :
    (s.begin).host = s.host := rfl
@[simp] theorem State.begin_reply (s : State) :
    (s.begin).reply = s.reply := rfl
@[simp] theorem State.begin_epoch (s : State) :
    (s.begin).epoch = s.epoch := rfl
@[simp] theorem State.begin_draws (s : State) :
    (s.begin).draws = s.draws := rfl

/-! ### `State.dstPush` -/

@[simp] theorem State.dstPush_key (s : State) (bs : List Byte) :
    (s.dstPush bs).key = s.key := rfl
@[simp] theorem State.dstPush_keyValid (s : State) (bs : List Byte) :
    (s.dstPush bs).keyValid = s.keyValid := rfl
@[simp] theorem State.dstPush_phase (s : State) (bs : List Byte) :
    (s.dstPush bs).phase = s.phase := rfl
@[simp] theorem State.dstPush_err (s : State) (bs : List Byte) :
    (s.dstPush bs).err = s.err := rfl
@[simp] theorem State.dstPush_wsize (s : State) (bs : List Byte) :
    (s.dstPush bs).wsize = s.wsize := rfl
@[simp] theorem State.dstPush_slen (s : State) (bs : List Byte) :
    (s.dstPush bs).slen = s.slen := rfl
@[simp] theorem State.dstPush_secret (s : State) (bs : List Byte) :
    (s.dstPush bs).secret = s.secret := rfl
@[simp] theorem State.dstPush_wbuf (s : State) (bs : List Byte) :
    (s.dstPush bs).wbuf = s.wbuf := rfl
@[simp] theorem State.dstPush_src (s : State) (bs : List Byte) :
    (s.dstPush bs).src = s.src := rfl
@[simp] theorem State.dstPush_dst (s : State) (bs : List Byte) :
    (s.dstPush bs).dst = s.dst ++ bs := rfl
@[simp] theorem State.dstPush_mix (s : State) (bs : List Byte) :
    (s.dstPush bs).mix = s.mix := rfl
@[simp] theorem State.dstPush_chk (s : State) (bs : List Byte) :
    (s.dstPush bs).chk = s.chk := rfl
@[simp] theorem State.dstPush_host (s : State) (bs : List Byte) :
    (s.dstPush bs).host = s.host := rfl
@[simp] theorem State.dstPush_reply (s : State) (bs : List Byte) :
    (s.dstPush bs).reply = s.reply := rfl
@[simp] theorem State.dstPush_epoch (s : State) (bs : List Byte) :
    (s.dstPush bs).epoch = s.epoch := rfl
@[simp] theorem State.dstPush_draws (s : State) (bs : List Byte) :
    (s.dstPush bs).draws = s.draws := rfl

/-! ### `State.releaseMix` -/

@[simp] theorem State.releaseMix_key (s : State) :
    (s.releaseMix).key = s.key := rfl
@[simp] theorem State.releaseMix_keyValid (s : State) :
    (s.releaseMix).keyValid = s.keyValid := rfl
@[simp] theorem State.releaseMix_phase (s : State) :
    (s.releaseMix).phase = s.phase := rfl
@[simp] theorem State.releaseMix_err (s : State) :
    (s.releaseMix).err = s.err := rfl
@[simp] theorem State.releaseMix_wsize (s : State) :
    (s.releaseMix).wsize = s.wsize := rfl
@[simp] theorem State.releaseMix_slen (s : State) :
    (s.releaseMix).slen = s.slen := rfl
@[simp] theorem State.releaseMix_secret (s : State) :
    (s.releaseMix).secret = s.secret := rfl
@[simp] theorem State.releaseMix_wbuf (s : State) :
    (s.releaseMix).wbuf = s.wbuf := rfl
@[simp] theorem State.releaseMix_src (s : State) :
    (s.releaseMix).src = s.src := rfl
@[simp] theorem State.releaseMix_dst (s : State) :
    (s.releaseMix).dst = s.dst := rfl
@[simp] theorem State.releaseMix_mix (s : State) :
    (s.releaseMix).mix = .free s.draws := rfl
@[simp] theorem State.releaseMix_chk (s : State) :
    (s.releaseMix).chk = s.chk := rfl
@[simp] theorem State.releaseMix_host (s : State) :
    (s.releaseMix).host = s.host := rfl
@[simp] theorem State.releaseMix_reply (s : State) :
    (s.releaseMix).reply = s.reply := rfl
@[simp] theorem State.releaseMix_epoch (s : State) :
    (s.releaseMix).epoch = s.epoch := rfl
@[simp] theorem State.releaseMix_draws (s : State) :
    (s.releaseMix).draws = s.draws + 1 := rfl

/-! ### `State.releaseChk` -/

@[simp] theorem State.releaseChk_key (s : State) :
    (s.releaseChk).key = s.key := rfl
@[simp] theorem State.releaseChk_keyValid (s : State) :
    (s.releaseChk).keyValid = s.keyValid := rfl
@[simp] theorem State.releaseChk_phase (s : State) :
    (s.releaseChk).phase = s.phase := rfl
@[simp] theorem State.releaseChk_err (s : State) :
    (s.releaseChk).err = s.err := rfl
@[simp] theorem State.releaseChk_wsize (s : State) :
    (s.releaseChk).wsize = s.wsize := rfl
@[simp] theorem State.releaseChk_slen (s : State) :
    (s.releaseChk).slen = s.slen := rfl
@[simp] theorem State.releaseChk_secret (s : State) :
    (s.releaseChk).secret = s.secret := rfl
@[simp] theorem State.releaseChk_wbuf (s : State) :
    (s.releaseChk).wbuf = s.wbuf := rfl
@[simp] theorem State.releaseChk_src (s : State) :
    (s.releaseChk).src = s.src := rfl
@[simp] theorem State.releaseChk_dst (s : State) :
    (s.releaseChk).dst = s.dst := rfl
@[simp] theorem State.releaseChk_mix (s : State) :
    (s.releaseChk).mix = s.mix := rfl
@[simp] theorem State.releaseChk_chk (s : State) :
    (s.releaseChk).chk = .free s.draws := rfl
@[simp] theorem State.releaseChk_host (s : State) :
    (s.releaseChk).host = s.host := rfl
@[simp] theorem State.releaseChk_reply (s : State) :
    (s.releaseChk).reply = s.reply := rfl
@[simp] theorem State.releaseChk_epoch (s : State) :
    (s.releaseChk).epoch = s.epoch := rfl
@[simp] theorem State.releaseChk_draws (s : State) :
    (s.releaseChk).draws = s.draws + 1 := rfl

/-! ### `State.answer` -/

@[simp] theorem State.answer_key (s : State) (r : Reply) :
    (s.answer r).key = s.key := rfl
@[simp] theorem State.answer_keyValid (s : State) (r : Reply) :
    (s.answer r).keyValid = s.keyValid := rfl
@[simp] theorem State.answer_phase (s : State) (r : Reply) :
    (s.answer r).phase = s.phase := rfl
@[simp] theorem State.answer_err (s : State) (r : Reply) :
    (s.answer r).err = s.err := rfl
@[simp] theorem State.answer_wsize (s : State) (r : Reply) :
    (s.answer r).wsize = s.wsize := rfl
@[simp] theorem State.answer_slen (s : State) (r : Reply) :
    (s.answer r).slen = s.slen := rfl
@[simp] theorem State.answer_secret (s : State) (r : Reply) :
    (s.answer r).secret = s.secret := rfl
@[simp] theorem State.answer_wbuf (s : State) (r : Reply) :
    (s.answer r).wbuf = s.wbuf := rfl
@[simp] theorem State.answer_src (s : State) (r : Reply) :
    (s.answer r).src = s.src := rfl
@[simp] theorem State.answer_dst (s : State) (r : Reply) :
    (s.answer r).dst = s.dst := rfl
@[simp] theorem State.answer_mix (s : State) (r : Reply) :
    (s.answer r).mix = s.mix := rfl
@[simp] theorem State.answer_chk (s : State) (r : Reply) :
    (s.answer r).chk = s.chk := rfl
@[simp] theorem State.answer_host (s : State) (r : Reply) :
    (s.answer r).host = s.host := rfl
@[simp] theorem State.answer_reply (s : State) (r : Reply) :
    (s.answer r).reply = r := rfl
@[simp] theorem State.answer_epoch (s : State) (r : Reply) :
    (s.answer r).epoch = s.epoch := rfl
@[simp] theorem State.answer_draws (s : State) (r : Reply) :
    (s.answer r).draws = s.draws := rfl

/-! ### `State.take` -/

@[simp] theorem State.take_key (s : State) (rest : List HostAct) :
    (s.take rest).key = s.key := rfl
@[simp] theorem State.take_keyValid (s : State) (rest : List HostAct) :
    (s.take rest).keyValid = s.keyValid := rfl
@[simp] theorem State.take_phase (s : State) (rest : List HostAct) :
    (s.take rest).phase = s.phase := rfl
@[simp] theorem State.take_err (s : State) (rest : List HostAct) :
    (s.take rest).err = s.err := rfl
@[simp] theorem State.take_wsize (s : State) (rest : List HostAct) :
    (s.take rest).wsize = s.wsize := rfl
@[simp] theorem State.take_slen (s : State) (rest : List HostAct) :
    (s.take rest).slen = s.slen := rfl
@[simp] theorem State.take_secret (s : State) (rest : List HostAct) :
    (s.take rest).secret = s.secret := rfl
@[simp] theorem State.take_wbuf (s : State) (rest : List HostAct) :
    (s.take rest).wbuf = s.wbuf := rfl
@[simp] theorem State.take_src (s : State) (rest : List HostAct) :
    (s.take rest).src = s.src := rfl
@[simp] theorem State.take_dst (s : State) (rest : List HostAct) :
    (s.take rest).dst = s.dst := rfl
@[simp] theorem State.take_mix (s : State) (rest : List HostAct) :
    (s.take rest).mix = s.mix := rfl
@[simp] theorem State.take_chk (s : State) (rest : List HostAct) :
    (s.take rest).chk = s.chk := rfl
@[simp] theorem State.take_host (s : State) (rest : List HostAct) :
    (s.take rest).host = rest := rfl
@[simp] theorem State.take_reply (s : State) (rest : List HostAct) :
    (s.take rest).reply = s.reply := rfl
@[simp] theorem State.take_epoch (s : State) (rest : List HostAct) :
    (s.take rest).epoch = s.epoch := rfl
@[simp] theorem State.take_draws (s : State) (rest : List HostAct) :
    (s.take rest).draws = s.draws := rfl

/-! ### The buffers' reads see the buffers and the epoch only -/

theorem State.wbufRead_congr {s t : State} (hw : t.wbuf = s.wbuf) (he : t.epoch = s.epoch) (i : Nat) :
    t.wbufRead i = s.wbufRead i := by
  simp only [State.wbufRead, hw, he]

theorem State.secretRead_congr {s t : State} (hs : t.secret = s.secret) (he : t.epoch = s.epoch)
    (k : Nat) : t.secretRead k = s.secretRead k := by
  simp only [State.secretRead, hs, he]

@[simp] theorem State.wbufWrite_secretRead (s : State) (i : Nat) (b : Byte) (j : Nat) :
    (s.wbufWrite i b).secretRead j = s.secretRead j := rfl
@[simp] theorem State.secretWrite_wbufRead (s : State) (k : Nat) (b : Byte) (j : Nat) :
    (s.secretWrite k b).wbufRead j = s.wbufRead j := rfl
@[simp] theorem State.setPhase_wbufRead (s : State) (p : Phase) (j : Nat) :
    (s.setPhase p).wbufRead j = s.wbufRead j := rfl
@[simp] theorem State.setPhase_secretRead (s : State) (p : Phase) (j : Nat) :
    (s.setPhase p).secretRead j = s.secretRead j := rfl
@[simp] theorem State.begin_wbufRead (s : State) (j : Nat) :
    (s.begin).wbufRead j = s.wbufRead j := rfl
@[simp] theorem State.begin_secretRead (s : State) (j : Nat) :
    (s.begin).secretRead j = s.secretRead j := rfl
@[simp] theorem State.dstPush_wbufRead (s : State) (bs : List Byte) (j : Nat) :
    (s.dstPush bs).wbufRead j = s.wbufRead j := rfl
@[simp] theorem State.dstPush_secretRead (s : State) (bs : List Byte) (j : Nat) :
    (s.dstPush bs).secretRead j = s.secretRead j := rfl
@[simp] theorem State.releaseMix_wbufRead (s : State) (j : Nat) :
    (s.releaseMix).wbufRead j = s.wbufRead j := rfl
@[simp] theorem State.releaseMix_secretRead (s : State) (j : Nat) :
    (s.releaseMix).secretRead j = s.secretRead j := rfl
@[simp] theorem State.releaseChk_wbufRead (s : State) (j : Nat) :
    (s.releaseChk).wbufRead j = s.wbufRead j := rfl
@[simp] theorem State.releaseChk_secretRead (s : State) (j : Nat) :
    (s.releaseChk).secretRead j = s.secretRead j := rfl
@[simp] theorem State.answer_wbufRead (s : State) (r : Reply) (j : Nat) :
    (s.answer r).wbufRead j = s.wbufRead j := rfl
@[simp] theorem State.answer_secretRead (s : State) (r : Reply) (j : Nat) :
    (s.answer r).secretRead j = s.secretRead j := rfl
@[simp] theorem State.take_wbufRead (s : State) (rest : List HostAct) (j : Nat) :
    (s.take rest).wbufRead j = s.wbufRead j := rfl
@[simp] theorem State.take_secretRead (s : State) (rest : List HostAct) (j : Nat) :
    (s.take rest).secretRead j = s.secretRead j := rfl

end Sys2Proof.Machine
end

