-- ==== Sys2Proof/Laws/Memory.lean ====
section
/-! SUPPORT. The laws of the byte buffers: read after write, the canonical form, and the little-endian
words over them. -/

namespace Sys2Proof.Machine

/-- A word is below `2^32`, with the width written out (00_scope.md R7). -/
theorem word_lt (w : Word) : w.toNat < 2 ^ 32 := w.isLt

/-- A host byte address is below `2^13` (20_memory.md R50). -/
theorem addr_lt (a : Addr) : a.toNat < 2 ^ 13 := a.isLt

/-! ### The list of bytes -/

theorem Memory.find?_write (m : Memory) (a : Nat) (b : Byte) (a' : Nat) :
    (Memory.write m a b).find? a' = if a' = a then some b else m.find? a' := by
  induction m with
  | nil => simp [Memory.write, Memory.find?, eq_comm]
  | cons c m ih =>
    unfold Memory.write
    split
    · by_cases h : a' = a
      · simp [Memory.find?, h]
      · simp [Memory.find?, h, Ne.symm h]
    · split
      · by_cases h : a' = a
        · simp [Memory.find?, h]
        · have : a ≠ a' := fun e => h e.symm
          have h2 : c.1 ≠ a' := by omega
          simp [Memory.find?, h, this, h2]
      · by_cases h2 : c.1 = a'
        · have : a' ≠ a := by omega
          simp [Memory.find?, h2, this]
        · simp [Memory.find?, h2, ih]

/-- Every address of a canonical buffer is below its size. -/
theorem Memory.wf_head_lt {size : Nat} {c : Host.Cell} {m : Memory}
    (h : Memory.wf size (c :: m) = true) : c.1 < size := by
  induction m generalizing c with
  | nil => simpa [Memory.wf] using h
  | cons d m ih =>
    simp only [Memory.wf, Bool.and_eq_true, decide_eq_true_eq] at h
    exact lt_trans h.1 (ih h.2)

theorem Memory.wf_tail {size : Nat} {c : Host.Cell} {m : Memory}
    (h : Memory.wf size (c :: m) = true) : Memory.wf size m = true := by
  cases m with
  | nil => rfl
  | cons d m =>
    simp only [Memory.wf, Bool.and_eq_true, decide_eq_true_eq] at h
    exact h.2

theorem Memory.wf_cons {size : Nat} {c : Host.Cell} {m : Memory} (hc : c.1 < size)
    (hm : Memory.wf size m = true) (hlt : ∀ d ∈ m.head?, c.1 < d.1) :
    Memory.wf size (c :: m) = true := by
  cases m with
  | nil => simpa [Memory.wf] using hc
  | cons d m => simpa [Memory.wf, hm] using hlt d rfl

/-- A write inside the buffer keeps the canonical form. -/
theorem Memory.wf_write {size : Nat} {m : Memory} {a : Nat} {b : Byte}
    (h : Memory.wf size m = true) (ha : a < size) : Memory.wf size (m.write a b) = true := by
  induction m with
  | nil => simpa [Memory.write, Memory.wf] using ha
  | cons c m ih =>
    unfold Memory.write
    split
    · rename_i hlt
      exact Memory.wf_cons ha h (by simpa using hlt)
    · split
      · rename_i heq
        refine Memory.wf_cons ha (Memory.wf_tail h) fun d hd => ?_
        cases m with
        | nil => simp at hd
        | cons d' m =>
          simp only [List.head?_cons, Option.mem_some_iff] at hd
          subst hd
          simp only [Memory.wf, Bool.and_eq_true, decide_eq_true_eq] at h
          exact heq ▸ h.1
      · rename_i hge hne
        refine Memory.wf_cons (Memory.wf_head_lt h) (ih (Memory.wf_tail h)) fun d hd => ?_
        cases m with
        | nil =>
          simp only [Memory.write, List.head?_cons, Option.mem_some_iff] at hd
          subst hd
          show c.1 < a
          omega
        | cons d' m =>
          simp only [Memory.wf, Bool.and_eq_true, decide_eq_true_eq] at h
          have h1 := h.1
          unfold Memory.write at hd
          split at hd
          · simp only [List.head?_cons, Option.mem_some_iff] at hd
            subst hd
            show c.1 < a
            omega
          · split at hd <;> simp only [List.head?_cons, Option.mem_some_iff] at hd <;> subst hd
            · show c.1 < a
              omega
            · exact h1

/-! ### `WBUF` and `SECRET` -/

theorem State.wbufRead_wbufWrite (s : State) (i : Nat) (b : Byte) (j : Nat) :
    (s.wbufWrite i b).wbufRead j = if j = i then b else s.wbufRead j := by
  simp only [State.wbufRead, State.wbufWrite, Memory.find?_write]
  split <;> rfl

theorem State.secretRead_secretWrite (s : State) (k : Nat) (b : Byte) (j : Nat) :
    (s.secretWrite k b).secretRead j = if j = k then b else s.secretRead j := by
  simp only [State.secretRead, State.secretWrite, Memory.find?_write]
  split <;> rfl

/-- `t` differs from `s` in `WBUF` at most. -/
def State.SameButWbuf (s t : State) : Prop := t = { s with wbuf := t.wbuf }

theorem State.SameButWbuf.refl (s : State) : s.SameButWbuf s := rfl

theorem State.SameButWbuf.trans {s t u : State} (h : s.SameButWbuf t) (h' : t.SameButWbuf u) :
    s.SameButWbuf u := by
  unfold State.SameButWbuf at *
  rw [h'] ; rw [h]

theorem State.sameButWbuf_wbufWrite (s : State) (i : Nat) (b : Byte) :
    s.SameButWbuf (s.wbufWrite i b) := rfl

/-- Everything a fill does to `WBUF`. -/
theorem State.wbufRead_wbufFill (s : State) (i : Nat) (bs : List Byte) (j : Nat) :
    (s.wbufFill i bs).wbufRead j =
      if i ≤ j ∧ j < i + bs.length then bs.getD (j - i) 0 else s.wbufRead j := by
  induction bs generalizing s i with
  | nil =>
    have h : ¬ (i ≤ j ∧ j < i + ([] : List Byte).length) := by simp
    rw [if_neg h]; rfl
  | cons b bs ih =>
    rw [State.wbufFill, ih, State.wbufRead_wbufWrite]
    simp only [List.length_cons]
    by_cases h : i + 1 ≤ j ∧ j < i + 1 + bs.length
    · have e : j - i = (j - (i + 1)) + 1 := by omega
      rw [if_pos h, if_pos (by omega), e, List.getD_cons_succ]
    · rw [if_neg h]
      by_cases hj : j = i
      · subst hj
        rw [if_pos rfl, if_pos (by omega), Nat.sub_self, List.getD_cons_zero]
      · rw [if_neg hj, if_neg (by omega)]

theorem State.sameButWbuf_wbufFill (s : State) (i : Nat) (bs : List Byte) :
    s.SameButWbuf (s.wbufFill i bs) := by
  induction bs generalizing s i with
  | nil => rfl
  | cons b bs ih => exact (s.sameButWbuf_wbufWrite i b).trans (ih _ _)

theorem State.wbufFill_wf {s : State} {i : Nat} {bs : List Byte} {size : Nat}
    (h : s.wbuf.wf size = true) (hi : i + bs.length ≤ size) :
    (s.wbufFill i bs).wbuf.wf size = true := by
  induction bs generalizing s i with
  | nil => exact h
  | cons b bs ih =>
    simp only [List.length_cons] at hi
    exact ih (Memory.wf_write h (by omega)) (by omega)

/-- Everything a fill does to `SECRET`. -/
theorem State.secretRead_secretFill (s : State) (k : Nat) (bs : List Byte) (j : Nat) :
    (s.secretFill k bs).secretRead j =
      if k ≤ j ∧ j < k + bs.length then bs.getD (j - k) 0 else s.secretRead j := by
  induction bs generalizing s k with
  | nil =>
    have h : ¬ (k ≤ j ∧ j < k + ([] : List Byte).length) := by simp
    rw [if_neg h]; rfl
  | cons b bs ih =>
    rw [State.secretFill, ih, State.secretRead_secretWrite]
    simp only [List.length_cons]
    by_cases h : k + 1 ≤ j ∧ j < k + 1 + bs.length
    · have e : j - k = (j - (k + 1)) + 1 := by omega
      rw [if_pos h, if_pos (by omega), e, List.getD_cons_succ]
    · rw [if_neg h]
      by_cases hj : j = k
      · subst hj
        rw [if_pos rfl, if_pos (by omega), Nat.sub_self, List.getD_cons_zero]
      · rw [if_neg hj, if_neg (by omega)]

theorem State.secretFill_frame (s : State) (k : Nat) (bs : List Byte) :
    s.secretFill k bs = { s with secret := (s.secretFill k bs).secret } := by
  induction bs generalizing s k with
  | nil => rfl
  | cons b bs ih =>
    conv_lhs => rw [State.secretFill, ih]
    rfl

theorem State.secretFill_wf {s : State} {k : Nat} {bs : List Byte} {size : Nat}
    (h : s.secret.wf size = true) (hk : k + bs.length ≤ size) :
    (s.secretFill k bs).secret.wf size = true := by
  induction bs generalizing s k with
  | nil => exact h
  | cons b bs ih =>
    simp only [List.length_cons] at hk
    exact ih (Memory.wf_write h (by omega)) (by omega)

/-! ### Little-endian words -/

/-- A byte of a little-endian word is the byte that was put there. -/
theorem byteOf_wordLE (b0 b1 b2 b3 : Byte) (k : Nat) (hk : k < 4) :
    byteOf (wordLE b0 b1 b2 b3) k = [b0, b1, b2, b3].getD k 0 := by
  have hcases : k = 0 ∨ k = 1 ∨ k = 2 ∨ k = 3 := by omega
  refine BitVec.eq_of_getLsbD_eq fun i hi => ?_
  simp only [byteOf, wordLE, BitVec.getLsbD_extractLsb', BitVec.getLsbD_append, hi, decide_true,
    Bool.true_and]
  rcases hcases with rfl | rfl | rfl | rfl <;>
    simp only [List.getD_cons_zero, List.getD_cons_succ]
  · rw [if_pos (by omega)]; congr 1; omega
  · rw [if_neg (by omega), if_pos (by omega)]; congr 1; omega
  · rw [if_neg (by omega), if_neg (by omega), if_pos (by omega)]; congr 1; omega
  · rw [if_neg (by omega), if_neg (by omega), if_neg (by omega)]; congr 1; omega

/-- A word is the little-endian word of its bytes. -/
theorem wordLE_byteOf (w : Word) :
    wordLE (byteOf w 0) (byteOf w 1) (byteOf w 2) (byteOf w 3) = w := by
  refine BitVec.eq_of_getLsbD_eq fun i hi => ?_
  have hi : i < 32 := hi
  simp only [byteOf, wordLE, BitVec.getLsbD_extractLsb', BitVec.getLsbD_append]
  split
  · simp_all
  · split
    · rw [decide_eq_true (by omega), Bool.true_and]; congr 1; omega
    · split
      · rw [decide_eq_true (by omega), Bool.true_and]; congr 1; omega
      · rw [decide_eq_true (by omega), Bool.true_and]; congr 1; omega

/-- The value of a little-endian word. -/
theorem wordLE_toNat (b0 b1 b2 b3 : Byte) :
    (wordLE b0 b1 b2 b3).toNat =
      b0.toNat + 2 ^ 8 * b1.toNat + 2 ^ 16 * b2.toNat + 2 ^ 24 * b3.toNat := by
  have h0 := b0.isLt
  have h1 := b1.isLt
  have h2 := b2.isLt
  have h3 := b3.isLt
  simp only [wordLE, BitVec.toNat_append]
  rw [← Nat.shiftLeft_add_eq_or_of_lt (by omega), ← Nat.shiftLeft_add_eq_or_of_lt (by omega),
    ← Nat.shiftLeft_add_eq_or_of_lt (by omega)]
  simp only [Nat.shiftLeft_eq]
  omega

/-- One more byte of a little-endian sum (20_memory.md R57). -/
theorem sum_bytes_succ (rd : Nat → Byte) (a n : Nat) :
    ((List.range (n + 1)).map fun k => (rd (a + k)).toNat * 2 ^ (8 * k)).sum =
      ((List.range n).map fun k => (rd (a + k)).toNat * 2 ^ (8 * k)).sum +
        2 ^ (8 * n) * (rd (a + n)).toNat := by
  simp [List.range_succ, Nat.mul_comm]

/-- The value of a read of a buffer (20_memory.md R57). -/
theorem readLE_toNat (rd : Nat → Byte) (a : Nat) (n : Width) :
    (readLE rd a n).toNat =
      ((List.range n.bytes).map fun k => (rd (a + k)).toNat * 2 ^ (8 * k)).sum := by
  have l1 : ((List.range 1).map fun k => (rd (a + k)).toNat * 2 ^ (8 * k)).sum = (rd a).toNat := by
    simp
  have l2 : ((List.range 2).map fun k => (rd (a + k)).toNat * 2 ^ (8 * k)).sum =
      (rd a).toNat + 2 ^ 8 * (rd (a + 1)).toNat := by
    rw [sum_bytes_succ, l1]
  have l3 : ((List.range 3).map fun k => (rd (a + k)).toNat * 2 ^ (8 * k)).sum =
      (rd a).toNat + 2 ^ 8 * (rd (a + 1)).toNat + 2 ^ 16 * (rd (a + 2)).toNat := by
    rw [sum_bytes_succ, l2]
  have l4 : ((List.range 4).map fun k => (rd (a + k)).toNat * 2 ^ (8 * k)).sum =
      (rd a).toNat + 2 ^ 8 * (rd (a + 1)).toNat + 2 ^ 16 * (rd (a + 2)).toNat +
        2 ^ 24 * (rd (a + 3)).toNat := by
    rw [sum_bytes_succ, l3]
  cases n
  · rw [Width.bytes, l1, readLE, wordLE_toNat]; rfl
  · rw [Width.bytes, l2, readLE, wordLE_toNat]; rfl
  · rw [Width.bytes, l4, readLE, wordLE_toNat]

theorem length_lowBytes (w : Word) (n : Nat) : (lowBytes w n).length = n := by
  simp [lowBytes]

theorem lowBytes_getD (w : Word) {n k : Nat} (hk : k < n) :
    (lowBytes w n).getD k 0 = byteOf w k := by
  simp [lowBytes, List.getD_eq_getElem?_getD, hk]

/-- A word read from bytes that agree is the same word. -/
theorem readLE_congr {rd rd' : Nat → Byte} {a : Nat} {n : Width}
    (h : ∀ k, k < n.bytes → rd' (a + k) = rd (a + k)) : readLE rd' a n = readLE rd a n := by
  cases n
  · simp only [readLE]
    rw [show rd' a = rd a from h 0 (by decide)]
  · simp only [readLE]
    rw [show rd' a = rd a from h 0 (by decide), h 1 (by decide)]
  · simp only [readLE]
    rw [show rd' a = rd a from h 0 (by decide), h 1 (by decide), h 2 (by decide), h 3 (by decide)]

/-- A word of the secret with its byte addresses written out (R56). -/
theorem State.secretWord_eq (s : State) (j : Nat) :
    s.secretWord j = readLE s.secretRead (4 * j) .w4 := rfl

/-- The key depends on the first 16 bytes of the secret alone (40_key_derivation.md R102). -/
theorem State.deriveKey_congr {s t : State} (h : ∀ k, k < 16 → t.secretRead k = s.secretRead k) :
    t.deriveKey = s.deriveKey := by
  have hw : ∀ j, j < 4 → t.secretWord j = s.secretWord j := fun j hj =>
    readLE_congr fun k hk => h _ (by simp only [Width.bytes, Config.wordBytes] at *; omega)
  simp only [State.deriveKey, hw 0 (by decide), hw 1 (by decide), hw 2 (by decide),
    hw 3 (by decide)]

/-- A load sees the four bytes at its address and nothing else. -/
theorem State.ldW_congr {s t : State} {a : Nat}
    (h : ∀ k, k < 4 → t.wbufRead (a + k) = s.wbufRead (a + k)) : t.ldW a = s.ldW a :=
  readLE_congr h

/-- The bytes of a loaded word. -/
theorem State.byteOf_ldW (s : State) (a k : Nat) (hk : k < 4) :
    byteOf (s.ldW a) k = s.wbufRead (a + k) := by
  rw [State.ldW, readLE, byteOf_wordLE _ _ _ _ _ hk]
  obtain rfl | rfl | rfl | rfl : k = 0 ∨ k = 1 ∨ k = 2 ∨ k = 3 := by omega
  all_goals rfl

/-- Everything a word store does to `WBUF`. -/
theorem State.wbufRead_stW (s : State) (a : Nat) (w : Word) (j : Nat) :
    (s.stW a w).wbufRead j =
      if a ≤ j ∧ j < a + 4 then byteOf w (j - a) else s.wbufRead j := by
  simp only [State.stW, State.wbufRead_wbufWrite]
  by_cases h : a ≤ j ∧ j < a + 4
  · rw [if_pos h]
    obtain ⟨k, rfl⟩ := Nat.exists_eq_add_of_le h.1
    obtain rfl | rfl | rfl | rfl : k = 0 ∨ k = 1 ∨ k = 2 ∨ k = 3 := by omega
    all_goals simp
  · rw [if_neg h, if_neg (by omega), if_neg (by omega), if_neg (by omega), if_neg (by omega)]

theorem State.sameButWbuf_stW (s : State) (a : Nat) (w : Word) : s.SameButWbuf (s.stW a w) := rfl

/-- A word read where it was just stored. -/
theorem State.ldW_stW (s : State) (a : Nat) (w : Word) : (s.stW a w).ldW a = w := by
  have h : ∀ k, k < 4 → (s.stW a w).wbufRead (a + k) = byteOf w k := fun k hk => by
    rw [State.wbufRead_stW, if_pos (by omega), Nat.add_sub_cancel_left]
  rw [State.ldW, readLE, show (s.stW a w).wbufRead a = byteOf w 0 from h 0 (by decide),
    h 1 (by decide), h 2 (by decide), h 3 (by decide), wordLE_byteOf]

/-! ### Blocks -/

theorem State.length_loadBlock (s : State) (off n : Nat) : (s.loadBlock off n).length = n := by
  simp [State.loadBlock]

theorem State.loadBlock_getD (s : State) (off : Nat) {n p : Nat} (hp : p < n) :
    (s.loadBlock off n).getD p 0 = s.ldW (off + 4 * p) := by
  simp [State.loadBlock, List.getD_eq_getElem?_getD, hp]

/-- Blocks of the same bytes are the same block. -/
theorem State.loadBlock_congr {s t : State} {off n : Nat}
    (h : ∀ j, off ≤ j → j < off + 4 * n → t.wbufRead j = s.wbufRead j) :
    t.loadBlock off n = s.loadBlock off n := by
  simp only [State.loadBlock]
  refine List.map_congr_left fun p hp => State.ldW_congr fun k hk => ?_
  rw [List.mem_range] at hp
  exact h _ (by simp only [Config.wordBytes]; omega) (by simp only [Config.wordBytes]; omega)

/-- Everything a block store does to `WBUF`: byte `j` inside it is byte `(j - off) mod 4` of word
`(j - off) div 4`. -/
theorem State.wbufRead_storeBlock (s : State) (off : Nat) (ws : List Word) (j : Nat) :
    (s.storeBlock off ws).wbufRead j =
      if off ≤ j ∧ j < off + 4 * ws.length then
        byteOf (ws.getD ((j - off) / 4) 0) ((j - off) % 4)
      else s.wbufRead j := by
  induction ws generalizing s off with
  | nil =>
    have h : ¬ (off ≤ j ∧ j < off + 4 * ([] : List Word).length) := by simp
    rw [if_neg h]; rfl
  | cons w ws ih =>
    rw [State.storeBlock, ih, State.wbufRead_stW]
    simp only [List.length_cons, Config.wordBytes]
    by_cases h : off + 4 ≤ j ∧ j < off + 4 + 4 * ws.length
    · have e : (j - off) / 4 = (j - (off + 4)) / 4 + 1 := by omega
      have e' : (j - off) % 4 = (j - (off + 4)) % 4 := by omega
      rw [if_pos h, if_pos (by omega), e, e', List.getD_cons_succ]
    · rw [if_neg h]
      by_cases h' : off ≤ j ∧ j < off + 4
      · have e : (j - off) / 4 = 0 := by omega
        have e' : (j - off) % 4 = j - off := by omega
        rw [if_pos h', if_pos (by omega), e, e', List.getD_cons_zero]
      · rw [if_neg h', if_neg (by omega)]

theorem State.sameButWbuf_storeBlock (s : State) (off : Nat) (ws : List Word) :
    s.SameButWbuf (s.storeBlock off ws) := by
  induction ws generalizing s off with
  | nil => rfl
  | cons w ws ih => exact (s.sameButWbuf_stW off w).trans (ih _ _)

/-- A word of a block that was just stored. -/
theorem State.ldW_storeBlock (s : State) (off : Nat) (ws : List Word) {p : Nat}
    (hp : p < ws.length) : (s.storeBlock off ws).ldW (off + 4 * p) = ws.getD p 0 := by
  have h : ∀ k, k < 4 →
      (s.storeBlock off ws).wbufRead (off + 4 * p + k) = byteOf (ws.getD p 0) k := fun k hk => by
    have e : (off + 4 * p + k - off) / 4 = p := by omega
    have e' : (off + 4 * p + k - off) % 4 = k := by omega
    rw [State.wbufRead_storeBlock, if_pos (by omega), e, e']
  rw [State.ldW, readLE,
    show (s.storeBlock off ws).wbufRead (off + 4 * p) = byteOf (ws.getD p 0) 0 from h 0 (by decide),
    h 1 (by decide), h 2 (by decide), h 3 (by decide), wordLE_byteOf]

/-- A block loaded where it was just stored. -/
theorem State.loadBlock_storeBlock (s : State) (off : Nat) (ws : List Word) :
    (s.storeBlock off ws).loadBlock off ws.length = ws := by
  refine List.ext_getElem (State.length_loadBlock _ _ _) fun p hp hp' => ?_
  have h := State.loadBlock_getD (s.storeBlock off ws) off hp'
  rw [State.ldW_storeBlock s off ws hp'] at h
  simpa [List.getD_eq_getElem?_getD, hp', State.length_loadBlock] using h

theorem State.stW_wf {s : State} {a : Nat} {w : Word} {size : Nat}
    (h : s.wbuf.wf size = true) (ha : a + 4 ≤ size) : (s.stW a w).wbuf.wf size = true :=
  Memory.wf_write (Memory.wf_write (Memory.wf_write (Memory.wf_write h (by omega)) (by omega))
    (by omega)) (by omega)

theorem State.storeBlock_wf {s : State} {off : Nat} {ws : List Word} {size : Nat}
    (h : s.wbuf.wf size = true) (ho : off + 4 * ws.length ≤ size) :
    (s.storeBlock off ws).wbuf.wf size = true := by
  induction ws generalizing s off with
  | nil => exact h
  | cons w ws ih =>
    simp only [List.length_cons] at ho
    exact ih (State.stW_wf h (by omega)) (by simp only [Config.wordBytes]; omega)

end Sys2Proof.Machine
end

