-- ==== Sys2Proof/Laws/Mix.lean ====
section
/-! SUPPORT. The laws of the mixing engine's pure functions: lengths, what a position reads and
writes, and that one inverse round undoes one forward round (41_block_cipher.md R115 to R120). -/

namespace Sys2Proof.Machine

/-! ### Words of a block -/

theorem word_set (data : List Word) (p : Nat) (w : Word) (q : Nat) (hp : p < data.length) :
    word (data.set p w) q = if q = p then w else word data q := by
  simp only [word, List.getD_eq_getElem?_getD, List.getElem?_set]
  by_cases h : q = p
  · subst h; simp [hp]
  · rw [if_neg (Ne.symm h), if_neg h]

theorem set_word_self (data : List Word) (p : Nat) : data.set p (word data p) = data := by
  refine List.ext_getElem (by simp) fun q hq hq' => ?_
  rw [List.getElem_set]
  split
  · rename_i h; subst h; simp [word, List.getD_eq_getElem?_getD, hq']
  · rfl

/-- Two blocks of one length with the same words are the same block. -/
theorem block_ext {a b : List Word} (hl : a.length = b.length)
    (h : ∀ p, p < a.length → word a p = word b p) : a = b := by
  refine List.ext_getElem hl fun p hp hp' => ?_
  have := h p hp
  simpa [word, List.getD_eq_getElem?_getD, hp, hp'] using this

/-! ### The forward position without the cursor (10_state.md R34) -/

/-- A forward position that reads the previous word from the block in place of the cursor. -/
def encPosAt (key : Key) (sum : Word) (n : Nat) (data : List Word) (p : Nat) : List Word :=
  data.set p (word data p +
    mx sum (nextWord data n p) (prevWord data n p) p (roundE sum) key)

@[simp] theorem length_encPosAt (key : Key) (sum : Word) (n : Nat) (data : List Word) (p : Nat) :
    (encPosAt key sum n data p).length = data.length := by
  simp [encPosAt]

@[simp] theorem length_decPos (key : Key) (sum : Word) (n : Nat) (data : List Word) (p : Nat) :
    (decPos key sum n data p).length = data.length := by
  simp [decPos]

theorem length_foldl {f : List Word → Nat → List Word}
    (hf : ∀ d p, (f d p).length = d.length) (ps : List Nat) (data : List Word) :
    (ps.foldl f data).length = data.length := by
  induction ps generalizing data with
  | nil => rfl
  | cons p ps ih => rw [List.foldl_cons, ih, hf]

/-- Neither neighbour of a position is the position itself, for `N ≥ 2` (R120). -/
theorem nextWord_set {data : List Word} {n p : Nat} (hn : 2 ≤ n) (hp : p < n)
    (hl : data.length = n) (w : Word) : nextWord (data.set p w) n p = nextWord data n p := by
  unfold nextWord
  split <;> rw [word_set _ _ _ _ (by omega), if_neg (by omega)]

theorem prevWord_set {data : List Word} {n p : Nat} (hn : 2 ≤ n) (hp : p < n)
    (hl : data.length = n) (w : Word) : prevWord (data.set p w) n p = prevWord data n p := by
  unfold prevWord
  split <;> rw [word_set _ _ _ _ (by omega), if_neg (by omega)]

/-- The inverse position undoes the forward position (R120). -/
theorem decPos_encPosAt {key : Key} {sum : Word} {n p : Nat} {data : List Word} (hn : 2 ≤ n)
    (hp : p < n) (hl : data.length = n) :
    decPos key sum n (encPosAt key sum n data p) p = data := by
  unfold decPos encPosAt
  simp only [nextWord_set hn hp hl, prevWord_set hn hp hl, word_set _ _ _ _ (hl ▸ hp : p < data.length),
    if_true, add_sub_cancel_right, List.set_set, set_word_self]

/-- The forward position undoes the inverse position (R120). -/
theorem encPosAt_decPos {key : Key} {sum : Word} {n p : Nat} {data : List Word} (hn : 2 ≤ n)
    (hp : p < n) (hl : data.length = n) :
    encPosAt key sum n (decPos key sum n data p) p = data := by
  unfold decPos encPosAt
  simp only [nextWord_set hn hp hl, prevWord_set hn hp hl, word_set _ _ _ _ (hl ▸ hp : p < data.length),
    if_true, sub_add_cancel, List.set_set, set_word_self]

/-- The words a position leaves alone. -/
theorem word_encPosAt {key : Key} {sum : Word} {n p q : Nat} {data : List Word}
    (hp : p < data.length) (hq : q ≠ p) : word (encPosAt key sum n data p) q = word data q := by
  rw [encPosAt, word_set _ _ _ _ hp, if_neg hq]

/-! ### The cursor is redundant (R34) -/

/-- From a cursor that is the previous word, the positions `a, a+1, …` do to the block what the
positions without the cursor do, and leave the cursor at the word written last. -/
theorem foldl_encPos {key : Key} {sum : Word} {n : Nat} (k a : Nat) (data : List Word)
    (hl : data.length = n) (ha : a + k ≤ n) :
    (List.range' a k).foldl (encPos key sum n) (data, prevWord data n a) =
      ((List.range' a k).foldl (encPosAt key sum n) data,
        if k = 0 then prevWord data n a
        else word ((List.range' a k).foldl (encPosAt key sum n) data) (a + k - 1)) := by
  induction k generalizing a data with
  | zero => rfl
  | succ k ih =>
    rw [List.range'_succ, List.foldl_cons, List.foldl_cons]
    have hstep : encPos key sum n (data, prevWord data n a) a =
        (encPosAt key sum n data a, prevWord (encPosAt key sum n data a) n (a + 1)) := by
      have hz : prevWord (encPosAt key sum n data a) n (a + 1) = word (encPosAt key sum n data a) a := by
        simp [prevWord]
      rw [hz, encPosAt, word_set _ _ _ _ (by omega), if_pos rfl]
      rfl
    rw [hstep, ih (a + 1) _ (by simpa using hl) (by omega)]
    refine Prod.ext rfl ?_
    simp only [Nat.succ_ne_zero, if_false]
    split
    · rename_i hk
      subst hk
      simp [prevWord]
    · rw [show a + 1 + k - 1 = a + (k + 1) - 1 by omega]

/-- A forward round over blocks without the cursor. -/
def encRoundAt (key : Key) (sum : Word) (n : Nat) (data : List Word) : List Word :=
  (List.range n).foldl (encPosAt key sum n) data

theorem length_encRoundAt (key : Key) (sum : Word) (n : Nat) (data : List Word) :
    (encRoundAt key sum n data).length = data.length :=
  length_foldl (length_encPosAt key sum n) _ _

theorem length_decRound (key : Key) (sum : Word) (n : Nat) (data : List Word) :
    (decRound key sum n data).length = data.length :=
  length_foldl (length_decPos key sum n) _ _

/-- A round that starts with the cursor at the last word ends with the cursor at the last word, and
its block is the one of the round without the cursor (R34, R117). -/
theorem encRound_eq {key : Key} {sum : Word} {n : Nat} {data : List Word} (hn : 2 ≤ n)
    (hl : data.length = n) :
    encRound key sum n (data, word data (n - 1)) =
      (encRoundAt key sum n data, word (encRoundAt key sum n data) (n - 1)) := by
  have h := foldl_encPos (key := key) (sum := sum) n 0 data hl (by omega)
  rw [if_neg (by omega), Nat.zero_add, ← List.range_eq_range'] at h
  exact h

/-- `k` rounds without the cursor. -/
def encRoundsAt (key : Key) (n : Nat) : Nat → Word → List Word → List Word
  | 0, _, data => data
  | k + 1, sum, data =>
    encRoundsAt key n k (sum + Config.delta) (encRoundAt key (sum + Config.delta) n data)

theorem encRounds_eq {key : Key} {n : Nat} (hn : 2 ≤ n) (k : Nat) (sum : Word) (data : List Word)
    (hl : data.length = n) :
    encRounds key n k sum (data, word data (n - 1)) =
      (encRoundsAt key n k sum data, word (encRoundsAt key n k sum data) (n - 1)) := by
  induction k generalizing sum data with
  | zero => rfl
  | succ k ih =>
    rw [encRounds, encRound_eq hn hl, ih _ _ (by rw [length_encRoundAt, hl])]
    rfl

/-- `MixEnc` is the rounds without the cursor (R34). -/
theorem mixEnc_eq {n : Nat} (hn : 2 ≤ n) {data : List Word} (hl : data.length = n) (key : Key) :
    mixEnc data n hn key = encRoundsAt key n (rounds n) 0 data := by
  rw [mixEnc, encRounds_eq hn _ _ _ hl]

/-! ### Lengths -/

theorem length_encRoundsAt (key : Key) (n k : Nat) (sum : Word) (data : List Word) :
    (encRoundsAt key n k sum data).length = data.length := by
  induction k generalizing sum data with
  | zero => rfl
  | succ k ih => rw [encRoundsAt, ih, length_encRoundAt]

theorem length_decRounds (key : Key) (n k : Nat) (sum : Word) (data : List Word) :
    (decRounds key n k sum data).length = data.length := by
  induction k generalizing sum data with
  | zero => rfl
  | succ k ih => rw [decRounds, ih, length_decRound]

/-- Mixing keeps the length of a block. -/
theorem length_mixBlock (dir : Dir) {n : Nat} (hn : 2 ≤ n) {data : List Word}
    (hl : data.length = n) (key : Key) : (mixBlock dir data n hn key).length = n := by
  cases dir
  · rw [mixBlock, mixEnc_eq hn hl, length_encRoundsAt, hl]
  · rw [mixBlock, mixDec, length_decRounds, hl]

/-! ### One round and its inverse (R120) -/

/-- Undoing updates one by one, the last first, undoes them all. -/
theorem foldl_reverse_cancel {f g : List Word → Nat → List Word} {n : Nat}
    (hf : ∀ d p, (f d p).length = d.length)
    (hgf : ∀ d p, p < n → d.length = n → g (f d p) p = d) (ps : List Nat)
    (hps : ∀ p ∈ ps, p < n) (data : List Word) (hl : data.length = n) :
    ps.reverse.foldl g (ps.foldl f data) = data := by
  induction ps generalizing data with
  | nil => rfl
  | cons p ps ih =>
    rw [List.reverse_cons, List.foldl_append]
    simp only [List.foldl_cons, List.foldl_nil]
    rw [ih (fun q hq => hps q (List.mem_cons_of_mem _ hq)) _ (by rw [hf, hl])]
    exact hgf _ _ (hps p List.mem_cons_self) hl

/-- One inverse round undoes one forward round with the same `sum`. -/
theorem decRound_encRoundAt {key : Key} {sum : Word} {n : Nat} {data : List Word} (hn : 2 ≤ n)
    (hl : data.length = n) : decRound key sum n (encRoundAt key sum n data) = data :=
  foldl_reverse_cancel (length_encPosAt key sum n)
    (fun _ _ hp hd => decPos_encPosAt hn hp hd) _ (fun _ hp => List.mem_range.mp hp) _ hl

/-- One forward round undoes one inverse round with the same `sum`. -/
theorem encRoundAt_decRound {key : Key} {sum : Word} {n : Nat} {data : List Word} (hn : 2 ≤ n)
    (hl : data.length = n) : encRoundAt key sum n (decRound key sum n data) = data := by
  have h := foldl_reverse_cancel (f := decPos key sum n) (g := encPosAt key sum n) (n := n)
    (length_decPos key sum n) (fun _ _ hp hd => encPosAt_decPos hn hp hd) (List.range n).reverse
    (fun _ hp => List.mem_range.mp (List.mem_reverse.mp hp)) data hl
  rwa [List.reverse_reverse] at h

/-! ### The `sum` schedule (R118) -/

/-- One more increment of `sum`. -/
theorem ofNat_succ_mul_delta (k : Nat) :
    BitVec.ofNat 32 (k + 1) * Config.delta = BitVec.ofNat 32 k * Config.delta + Config.delta := by
  rw [BitVec.ofNat_add k 1, BitVec.add_mul]
  congr 1

/-- The last of `k + 1` rounds uses `sum` increased by `(k + 1) * DELTA`. -/
theorem encRoundsAt_succ_last (key : Key) (n k : Nat) (sum : Word) (data : List Word) :
    encRoundsAt key n (k + 1) sum data =
      encRoundAt key (sum + BitVec.ofNat 32 (k + 1) * Config.delta) n
        (encRoundsAt key n k sum data) := by
  induction k generalizing sum data with
  | zero => simp [encRoundsAt]
  | succ k ih =>
    have h : sum + Config.delta + BitVec.ofNat 32 (k + 1) * Config.delta =
        sum + BitVec.ofNat 32 (k + 1 + 1) * Config.delta := by
      rw [ofNat_succ_mul_delta (k + 1)]
      ring
    rw [encRoundsAt, ih (sum + Config.delta), h]
    rfl

end Sys2Proof.Machine
end

