-- ==== Sys2Proof/Laws/PerInstr.lean ====
section
/-! SUPPORT. What holds of every command as syntax, one lemma per constructor of Instr. -/

namespace Sys2Proof.Laws.EncodedRow

/-- The word of a command is of its row of the opcode map: it has the row's fixed bits
(30_encoding.md R84). -/
def Statement (i : Instr) : Prop :=
  encode i &&& (opcodeRow i.mnemonic).mask = (opcodeRow i.mnemonic).pattern

/-- Bit `j` of an assembled word: the field it lies in (30_encoding.md R81). -/
theorem getLsbD_assemble (opc : BitVec 4) (n : BitVec 7) (off : BitVec 13) (j : Nat) :
    (assemble opc n off).getLsbD j =
      if j < 4 then opc.getLsbD j
      else if j < 8 then false
      else if j < 15 then n.getLsbD (j - 8)
      else if j < 16 then false
      else if j < 29 then off.getLsbD (j - 16)
      else false := by
  simp only [assemble, BitVec.getLsbD_append]
  by_cases h1 : j < 4
  · rw [if_pos h1, if_pos h1]
  rw [if_neg h1, if_neg h1]
  by_cases h2 : j < 8
  · rw [if_pos (by omega), if_pos h2]; simp
  rw [if_neg (by omega), if_neg h2]
  by_cases h3 : j < 15
  · rw [if_pos (by omega), if_pos h3]; congr 1
  rw [if_neg (by omega), if_neg h3]
  by_cases h4 : j < 16
  · rw [if_pos (by omega), if_pos h4]; simp
  rw [if_neg (by omega), if_neg h4]
  by_cases h5 : j < 29
  · rw [if_pos (by omega), if_pos h5]; congr 1
  rw [if_neg (by omega), if_neg h5]; simp

theorem keyld : Statement .keyld := by unfold Statement; decide
theorem encw : Statement .encw := by unfold Statement; decide
theorem decw : Statement .decw := by unfold Statement; decide
theorem encs : Statement .encs := by unfold Statement; decide
theorem decs : Statement .decs := by unfold Statement; decide

/-- The fixed bits of format B do not meet `N` and `OFF` (R82). -/
theorem block_bits (opc : BitVec 4) (n : BitVec 7) (off : BitVec 13) :
    assemble opc n off &&& 0xE00080FF#32 = opc.setWidth 32 := by
  refine BitVec.eq_of_getLsbD_eq fun j hj => ?_
  rw [BitVec.getLsbD_and, getLsbD_assemble, BitVec.getLsbD_setWidth]
  obtain h | h : j < 4 ∨ 4 ≤ j := by omega
  · rw [if_pos h, decide_eq_true hj, Bool.true_and]
    obtain rfl | rfl | rfl | rfl : j = 0 ∨ j = 1 ∨ j = 2 ∨ j = 3 := by omega
    all_goals simp
  · rw [if_neg (by omega), BitVec.getLsbD_of_ge opc j h, Bool.and_false]
    interval_cases j <;> simp

theorem encb (off : BitVec 13) (n : BitVec 7) : Statement (.encb off n) := block_bits 2 n off

theorem decb (off : BitVec 13) (n : BitVec 7) : Statement (.decb off n) := block_bits 3 n off

/-- The fixed bits of format T do not meet `OFF` (R82). -/
theorem tailx (start : BitVec 13) : Statement (.tailx start) := by
  refine BitVec.eq_of_getLsbD_eq fun j hj => ?_
  show (assemble 4 0 start &&& 0xE000FFFF#32).getLsbD j = (0x00000004#32).getLsbD j
  rw [BitVec.getLsbD_and, getLsbD_assemble]
  interval_cases j <;> simp

end Sys2Proof.Laws.EncodedRow
end

