-- ==== Sys2Proof/Laws/Window.lean ====
section
/-! SUPPORT. Everything a block, a tail and a window do to the state (41_block_cipher.md R121,
42_tail_xor.md R135, 43_window_chunker.md R145 to R150). -/

namespace Sys2Proof.Machine

/-! ### The partition (R145, R149) -/

/-- The numbers of R145, every one. -/
theorem partition_spec (size : Nat) :
    (partition size).c = size / 256 ∧ (partition size).r = size % 256 ∧
    (partition size).l = size % 256 / 4 ∧
    (partition size).tpos = 256 * (size / 256) + 4 * (partition size).p ∧
    (partition size).tpos + (partition size).t = size ∧
    (2 ≤ size % 256 / 4 → (partition size).p = size % 256 / 4 ∧ (partition size).t = size % 4) ∧
    (size % 256 / 4 ≤ 1 → (partition size).p = 0 ∧ (partition size).t = size % 256) := by
  have hr : size - 256 * (size / 256) = size % 256 := by omega
  unfold partition
  simp only [Config.blockBytes, Config.wordBytes, hr]
  split
  · refine ⟨rfl, rfl, rfl, rfl, ?_, fun _ => ⟨rfl, ?_⟩, fun _ => ?_⟩ <;> dsimp only <;> omega
  · refine ⟨rfl, rfl, rfl, rfl, ?_, fun _ => ?_, fun _ => ⟨rfl, rfl⟩⟩ <;> dsimp only <;> omega

theorem partition_c (size : Nat) : (partition size).c = size / 256 := (partition_spec size).1

theorem partition_tpos_eq (size : Nat) :
    (partition size).tpos = 256 * (partition size).c + 4 * (partition size).p := by
  rw [partition_c, (partition_spec size).2.2.2.1]

theorem partition_tpos_add_t (size : Nat) : (partition size).tpos + (partition size).t = size :=
  (partition_spec size).2.2.2.2.1

theorem partition_p_le (size : Nat) : (partition size).p ≤ 63 := by
  obtain ⟨-, -, -, -, -, h, h'⟩ := partition_spec size
  by_cases hl : 2 ≤ size % 256 / 4
  · rw [(h hl).1]; omega
  · rw [(h' (by omega)).1]; omega

/-! ### The specification functions with the parameters' values written out -/

theorem blockOf_eq (rd : Nat → Byte) (off n : Nat) :
    blockOf rd off n = (List.range n).map fun p => readLE rd (off + 4 * p) .w4 := rfl

theorem mixedByte_eq (dir : Dir) (key : Key) (rd : Nat → Byte) (off n : Nat) (hn : 2 ≤ n) (i : Nat) :
    mixedByte dir key rd off n hn i =
      byteOf (word (mixBlock dir (blockOf rd off n) n hn key) ((i - off) / 4)) ((i - off) % 4) := rfl

theorem windowByte_eq (dir : Dir) (key : Key) (rd : Nat → Byte) (size i : Nat) :
    windowByte dir key rd size i =
      if i < 256 * (partition size).c then
        mixedByte dir key rd (256 * (i / 256)) 64 (by decide) i
      else if i < (partition size).tpos then
        if h : 0 < (partition size).p then
          mixedByte dir key rd (256 * (partition size).c) (partition size).p
            (partition_two_le_p h) i
        else rd i
      else rd i ^^^ tailMask (size - i) := rfl

theorem lastWindow_eq (len : Nat) :
    lastWindow len = if len = 0 then 0 else (len - 1) % 4096 + 1 := rfl

theorem streamBuffer_eq (rd : Nat → Byte) (out : List Byte) (i : Nat) :
    streamBuffer rd out i =
      if i < lastWindow out.length then
        listByte out (out.length - lastWindow out.length + i)
      else if i < 4096 ∧ 4096 ≤ out.length - lastWindow out.length then
        listByte out (out.length - lastWindow out.length - 4096 + i)
      else rd i := rfl

/-! ### One block -/

theorem State.loadBlock_eq_blockOf (s : State) (off n : Nat) :
    s.loadBlock off n = blockOf s.wbufRead off n := rfl

/-- Blocks read from bytes that agree on them are the same block. -/
theorem blockOf_congr {rd rd' : Nat → Byte} {off n : Nat}
    (h : ∀ j, off ≤ j → j < off + 4 * n → rd' j = rd j) : blockOf rd' off n = blockOf rd off n := by
  rw [blockOf_eq, blockOf_eq]
  refine List.map_congr_left fun p hp => readLE_congr fun k hk => ?_
  rw [List.mem_range] at hp
  have hk' : k < 4 := hk
  exact h _ (by omega) (by omega)

theorem mixedByte_congr {dir : Dir} {key : Key} {rd rd' : Nat → Byte} {off n : Nat} (hn : 2 ≤ n)
    (i : Nat) (h : ∀ j, off ≤ j → j < off + 4 * n → rd' j = rd j) :
    mixedByte dir key rd' off n hn i = mixedByte dir key rd off n hn i := by
  unfold mixedByte
  rw [blockOf_congr h]

/-- Everything a block does to `WBUF`. -/
theorem wbufRead_runBlock (dir : Dir) (off n : Nat) (hn : 2 ≤ n) (s : State) (j : Nat) :
    (runBlock dir off n hn s).wbufRead j =
      if off ≤ j ∧ j < off + 4 * n then mixedByte dir s.key s.wbufRead off n hn j
      else s.wbufRead j := by
  rw [runBlock, State.wbufRead_storeBlock, length_mixBlock dir hn (s.length_loadBlock off n)]
  rfl

/-- A block touches `WBUF` only. -/
theorem sameButWbuf_runBlock (dir : Dir) (off n : Nat) (hn : 2 ≤ n) (s : State) :
    s.SameButWbuf (runBlock dir off n hn s) := s.sameButWbuf_storeBlock _ _

/-- The words of the block after a block command. -/
theorem ldW_runBlock (dir : Dir) {off n p : Nat} (hn : 2 ≤ n) (s : State) (hp : p < n) :
    (runBlock dir off n hn s).ldW (off + 4 * p) =
      word (mixBlock dir (s.loadBlock off n) n hn s.key) p := by
  rw [runBlock, State.ldW_storeBlock]
  · rfl
  · rwa [length_mixBlock dir hn (s.length_loadBlock off n)]

theorem runBlock_wf (dir : Dir) {off n : Nat} (hn : 2 ≤ n) {s : State} {size : Nat}
    (h : s.wbuf.wf size = true) (ho : off + 4 * n ≤ size) :
    (runBlock dir off n hn s).wbuf.wf size = true :=
  State.storeBlock_wf h (by rwa [length_mixBlock dir hn (s.length_loadBlock off n)])

theorem State.SameButWbuf.key_eq {s t : State} (h : s.SameButWbuf t) : t.key = s.key := by
  rw [h]

theorem State.SameButWbuf.wsize_eq {s t : State} (h : s.SameButWbuf t) : t.wsize = s.wsize := by
  rw [h]

/-! ### The full blocks -/

theorem fullBlocks_succ (dir : Dir) (count : Nat) (s : State) :
    fullBlocks dir (count + 1) s =
      runBlock dir (256 * count) 64 (by decide) (fullBlocks dir count s) := by
  rw [fullBlocks, List.range_succ, List.foldl_append]
  rfl

theorem sameButWbuf_fullBlocks (dir : Dir) (count : Nat) (s : State) :
    s.SameButWbuf (fullBlocks dir count s) := by
  induction count with
  | zero => rfl
  | succ count ih =>
    rw [fullBlocks_succ]
    exact ih.trans (sameButWbuf_runBlock _ _ _ _ _)

/-- Everything the full blocks do to `WBUF`. -/
theorem wbufRead_fullBlocks (dir : Dir) (count : Nat) (s : State) (j : Nat) :
    (fullBlocks dir count s).wbufRead j =
      if j < 256 * count then mixedByte dir s.key s.wbufRead (256 * (j / 256)) 64 (by decide) j
      else s.wbufRead j := by
  induction count generalizing j with
  | zero => rfl
  | succ count ih =>
    rw [fullBlocks_succ, wbufRead_runBlock, (sameButWbuf_fullBlocks dir count s).key_eq]
    by_cases h : 256 * count ≤ j ∧ j < 256 * count + 4 * 64
    · rw [if_pos h, if_pos (by omega), show j / 256 = count by omega]
      exact mixedByte_congr _ _ fun i hi _ => by rw [ih, if_neg (by omega)]
    · rw [if_neg h, ih]
      by_cases h' : j < 256 * count
      · rw [if_pos h', if_pos (by omega)]
      · rw [if_neg h', if_neg (by omega)]

theorem fullBlocks_wf (dir : Dir) (count : Nat) {s : State} {size : Nat}
    (h : s.wbuf.wf size = true) (hc : 256 * count ≤ size) :
    (fullBlocks dir count s).wbuf.wf size = true := by
  induction count with
  | zero => exact h
  | succ count ih =>
    rw [fullBlocks_succ]
    exact runBlock_wf dir _ (ih (by omega)) (by omega)

/-! ### The tail -/

theorem tailMask_eq {d : Nat} (h : 1 ≤ d ∧ d ≤ 7) : tailMask d = mask d h := dif_pos h

theorem tailMask_zero : tailMask 0 = 0 := rfl

/-- Everything the tail transform does to `WBUF`. -/
theorem wbufRead_tailXor (size t : Nat) (ht : t ≤ 7) (hs : t ≤ size) (s : State) (j : Nat) :
    (tailXor size t ht s).wbufRead j =
      if size - t ≤ j ∧ j < size then s.wbufRead j ^^^ tailMask (size - j) else s.wbufRead j := by
  induction t generalizing s with
  | zero => rw [if_neg (by omega)]; rfl
  | succ t ih =>
    rw [tailXor, ih (by omega) (by omega)]
    simp only [State.wbufRead_wbufWrite]
    by_cases h : j = size - (t + 1)
    · subst h
      rw [if_neg (by omega), if_pos rfl, if_pos (by omega), show size - (size - (t + 1)) = t + 1 by omega,
        tailMask_eq ⟨by omega, ht⟩]
    · rw [if_neg h]
      by_cases h' : size - t ≤ j ∧ j < size
      · rw [if_pos h', if_pos (by omega)]
      · rw [if_neg h', if_neg (by omega)]

theorem sameButWbuf_tailXor (size t : Nat) (ht : t ≤ 7) (s : State) :
    s.SameButWbuf (tailXor size t ht s) := by
  induction t generalizing s with
  | zero => rfl
  | succ t ih => exact (s.sameButWbuf_wbufWrite _ _).trans (ih _ _)

theorem tailXor_wf (size t : Nat) (ht : t ≤ 7) {s : State} {bound : Nat}
    (h : s.wbuf.wf bound = true) (hs : size ≤ bound) (hp : t ≤ size) :
    (tailXor size t ht s).wbuf.wf bound = true := by
  induction t generalizing s with
  | zero => exact h
  | succ t ih => exact ih (by omega) (Memory.wf_write h (by omega)) (by omega)

/-! ### The window -/

theorem sameButWbuf_partialBlock (dir : Dir) (size : Nat) (s : State) :
    s.SameButWbuf (partialBlock dir size s) := by
  unfold partialBlock
  split
  · exact sameButWbuf_runBlock _ _ _ _ _
  · rfl

/-- Everything the partial block does to `WBUF`. -/
theorem wbufRead_partialBlock (dir : Dir) (size : Nat) (s : State) (j : Nat) :
    (partialBlock dir size s).wbufRead j =
      if h : 0 < (partition size).p then
        if 256 * (partition size).c ≤ j ∧ j < (partition size).tpos then
          mixedByte dir s.key s.wbufRead (256 * (partition size).c) (partition size).p
            (partition_two_le_p h) j
        else s.wbufRead j
      else s.wbufRead j := by
  unfold partialBlock
  split
  · rw [wbufRead_runBlock, partition_tpos_eq]
  · rfl

/-- A window touches `WBUF` only. -/
theorem sameButWbuf_window (dir : Dir) (s : State) : s.SameButWbuf (window dir s) :=
  ((sameButWbuf_fullBlocks _ _ _).trans (sameButWbuf_partialBlock _ _ _)).trans
    (sameButWbuf_tailXor _ _ _ _)

/-- Everything the full blocks and the partial block do to `WBUF`. -/
theorem wbufRead_blocks (dir : Dir) (size : Nat) (s : State) (j : Nat) :
    (partialBlock dir size (fullBlocks dir (partition size).c s)).wbufRead j =
      if j < 256 * (partition size).c then
        mixedByte dir s.key s.wbufRead (256 * (j / 256)) 64 (by decide) j
      else if j < (partition size).tpos then
        if h : 0 < (partition size).p then
          mixedByte dir s.key s.wbufRead (256 * (partition size).c) (partition size).p
            (partition_two_le_p h) j
        else s.wbufRead j
      else s.wbufRead j := by
  rw [wbufRead_partialBlock, wbufRead_fullBlocks, (sameButWbuf_fullBlocks dir _ s).key_eq]
  by_cases h1 : j < 256 * (partition size).c
  · rw [if_pos h1]
    split
    · rw [if_neg (by omega)]
    · rfl
  · rw [if_neg h1, if_neg h1]
    by_cases h2 : j < (partition size).tpos
    · rw [if_pos h2]
      split
      · rw [if_pos ⟨by omega, h2⟩]
        exact mixedByte_congr _ _ fun i hi _ => by rw [wbufRead_fullBlocks, if_neg (by omega)]
      · rfl
    · rw [if_neg h2]
      split
      · rw [if_neg (by omega)]
      · rfl

/-- Everything a window does to `WBUF`: every byte of it, and no byte at `WSIZE` or above. -/
theorem wbufRead_window (dir : Dir) (s : State) (j : Nat) :
    (window dir s).wbufRead j = windowByte dir s.key s.wbufRead s.wsize.toNat j := by
  have hle := partition_tpos_add_t s.wsize.toNat
  have htpos := partition_tpos_eq s.wsize.toNat
  unfold window
  rw [wbufRead_tailXor _ _ _ (by omega), wbufRead_blocks]
  rw [windowByte_eq]
  by_cases h1 : j < 256 * (partition s.wsize.toNat).c
  · rw [if_neg (by omega), if_pos h1, if_pos h1]
  · rw [if_neg h1, if_neg h1]
    by_cases h2 : j < (partition s.wsize.toNat).tpos
    · rw [if_neg (by omega), if_pos h2, if_pos h2]
    · rw [if_neg h2, if_neg h2]
      by_cases h3 : s.wsize.toNat - (partition s.wsize.toNat).t ≤ j ∧ j < s.wsize.toNat
      · rw [if_pos h3]
      · rw [if_neg h3, show s.wsize.toNat - j = 0 by omega, tailMask_zero]
        simp

/-- A window keeps the canonical form. -/
theorem window_wf (dir : Dir) {s : State} (h : s.wbuf.wf 4096 = true)
    (hs : s.wsize.toNat ≤ 4096) : (window dir s).wbuf.wf 4096 = true := by
  have hle := partition_tpos_add_t s.wsize.toNat
  have htpos := partition_tpos_eq s.wsize.toNat
  refine tailXor_wf _ _ _ ?_ hs (by omega)
  unfold partialBlock
  split
  · exact runBlock_wf dir _ (fullBlocks_wf dir _ h (by omega))
      (by simp only [Config.blockBytes]; omega)
  · exact fullBlocks_wf dir _ h (by omega)

/-- The bytes of a transformed window depend on the window's bytes alone (10_state.md R39). -/
theorem windowByte_congr {dir : Dir} {key : Key} {rd rd' : Nat → Byte} {size i : Nat}
    (hi : i < size) (h : ∀ j, j < size → rd' j = rd j) :
    windowByte dir key rd' size i = windowByte dir key rd size i := by
  have hle := partition_tpos_add_t size
  have htpos := partition_tpos_eq size
  have hc := partition_c size
  rw [windowByte_eq, windowByte_eq]
  split
  · exact mixedByte_congr _ _ fun j _ hj => h j (by omega)
  · split
    · split
      · exact mixedByte_congr _ _ fun j _ hj => h j (by omega)
      · exact h i hi
    · rw [h i hi]

end Sys2Proof.Machine
end

