-- ==== Sys2Proof/Laws/Stream.lean ====
section
/-! SUPPORT. Everything a stream command does: the pops, one turn of the loop, and the whole stream as
one partition of the source (44_stream_codec.md R161, R162, R166, R167). -/

namespace Sys2Proof.Machine

/-! ### The source port (10_state.md R36) -/

theorem Source.length_pending (src : Source) : src.pending.length = src.remaining := by
  simp [Source.pending, Source.remaining]

/-- Everything `n` pops do: the next bytes in order, the cursor behind them. -/
theorem Source.take_eq (n : Nat) (src : Source) :
    src.take n = (src.pending.take n, { src with cursor := src.cursor + min n src.remaining }) := by
  induction n generalizing src with
  | zero => simp [Source.take]
  | succ n ih =>
    by_cases h : src.cursor < src.bytes.length
    · have hp : src.pop? = some (src.bytes[src.cursor], { src with cursor := src.cursor + 1 }) := by
        simp [Source.pop?, h]
      have hd : src.pending = src.bytes[src.cursor] ::
          Source.pending { src with cursor := src.cursor + 1 } := List.drop_eq_getElem_cons h
      have hr : src.remaining = Source.remaining { src with cursor := src.cursor + 1 } + 1 := by
        simp only [Source.remaining]
        omega
      simp only [Source.take, hp, ih, hd, List.take_succ_cons]
      rw [show src.cursor + 1 + min n (Source.remaining { src with cursor := src.cursor + 1 }) =
        src.cursor + min (n + 1) src.remaining by omega]
    · have hp : src.pop? = none := by
        simp [Source.pop?, Nat.le_of_not_lt h]
      have hr : src.remaining = 0 := by
        simp only [Source.remaining]
        omega
      have hd : src.pending = [] := List.drop_eq_nil_of_le (by omega)
      simp [Source.take, hp, hr, hd]

/-! ### One turn of the loop (R162) -/

/-- `t` differs from `s` in `PHASE`, `WSIZE`, `WBUF`, `SRC` and `DST` at most. -/
def State.SameButStream (s t : State) : Prop :=
  t = { s with phase := t.phase, wsize := t.wsize, wbuf := t.wbuf, src := t.src, dst := t.dst }

theorem State.SameButStream.trans {s t u : State} (h : s.SameButStream t) (h' : t.SameButStream u) :
    s.SameButStream u := by
  unfold State.SameButStream at *
  rw [h', h]

theorem State.SameButWbuf.sameButStream {s t : State} (h : s.SameButWbuf t) :
    s.SameButStream t := by
  unfold State.SameButWbuf at h
  unfold State.SameButStream
  rw [h]

theorem sameButStream_readPhase (s : State) : s.SameButStream (readPhase s) := by
  have h : State.SameButStream s
      { s.setPhase .reading with src := (s.src.take (min Config.windowMax s.src.remaining)).2 } := rfl
  have h' := h.trans (State.sameButWbuf_wbufFill _ 0
    (s.src.take (min Config.windowMax s.src.remaining)).1).sameButStream
  exact h'.trans rfl

theorem sameButStream_streamTurn (dir : Dir) (s : State) : s.SameButStream (streamTurn dir s) := by
  have h1 : (readPhase s).SameButStream ((readPhase s).setPhase .transforming) := rfl
  have h2 := (sameButWbuf_window dir ((readPhase s).setPhase .transforming)).sameButStream
  exact (sameButStream_readPhase s).trans (h1.trans (h2.trans rfl))

theorem State.SameButStream.key_eq {s t : State} (h : s.SameButStream t) : t.key = s.key := by
  rw [h]

/-- The number of bytes of the next window (R162). -/
theorem length_taken (src : Source) :
    (src.pending.take (min 4096 src.remaining)).length = min 4096 src.remaining := by
  rw [List.length_take, Source.length_pending]
  omega

theorem readPhase_wsize (s : State) : (readPhase s).wsize.toNat = min 4096 s.src.remaining := by
  simp only [readPhase, Source.take_eq, Config.windowMax, length_taken, BitVec.toNat_ofNat]
  omega

theorem readPhase_src (s : State) :
    (readPhase s).src = { s.src with cursor := s.src.cursor + min 4096 s.src.remaining } := by
  have h := State.sameButWbuf_wbufFill
    { s.setPhase .reading with src := (s.src.take (min Config.windowMax s.src.remaining)).2 } 0
    (s.src.take (min Config.windowMax s.src.remaining)).1
  have h' : (readPhase s).src = (s.src.take (min Config.windowMax s.src.remaining)).2 := by
    show (State.wbufFill _ _ _).src = _
    rw [h]
  rw [h', Source.take_eq]
  simp only [Config.windowMax, Source.mk.injEq, true_and]
  omega

theorem readPhase_dst (s : State) : (readPhase s).dst = s.dst := by
  show (State.wbufFill _ _ _).dst = _
  rw [State.sameButWbuf_wbufFill]
  rfl

/-- The bytes of `WBUF` after Reading: the source's bytes, and above them what was there. -/
theorem readPhase_wbufRead (s : State) (j : Nat) :
    (readPhase s).wbufRead j =
      if j < min 4096 s.src.remaining then listByte (s.src.pending.take 4096) j
      else s.wbufRead j := by
  have h : (readPhase s).wbufRead j = (({ s.setPhase .reading with
      src := (s.src.take (min Config.windowMax s.src.remaining)).2 }).wbufFill 0
      (s.src.take (min Config.windowMax s.src.remaining)).1).wbufRead j := rfl
  have ht : s.src.pending.take (min 4096 s.src.remaining) = s.src.pending.take 4096 := by
    rw [List.take_eq_take_iff, Source.length_pending]
    omega
  have hl := length_taken s.src
  rw [ht] at hl
  rw [h, State.wbufRead_wbufFill, Source.take_eq]
  simp only [Config.windowMax, Nat.zero_add, Nat.zero_le, true_and, Nat.sub_zero, ht, hl]
  rfl

theorem streamTurn_src (dir : Dir) (s : State) :
    (streamTurn dir s).src = { s.src with cursor := s.src.cursor + min 4096 s.src.remaining } := by
  show (window dir _).src = _
  rw [sameButWbuf_window, ← readPhase_src]
  rfl

theorem streamTurn_wsize (dir : Dir) (s : State) :
    (streamTurn dir s).wsize.toNat = min 4096 s.src.remaining := by
  show (window dir _).wsize.toNat = _
  rw [sameButWbuf_window, ← readPhase_wsize]
  rfl

/-- The bytes of `WBUF` after one turn: the transformed window, and above it what was there. -/
theorem streamTurn_wbufRead (dir : Dir) (s : State) (j : Nat) :
    (streamTurn dir s).wbufRead j =
      if j < min 4096 s.src.remaining then
        windowByte dir s.key (listByte (s.src.pending.take 4096)) (min 4096 s.src.remaining) j
      else s.wbufRead j := by
  have h : (streamTurn dir s).wbufRead j =
      (window dir ((readPhase s).setPhase .transforming)).wbufRead j := rfl
  have hk : ((readPhase s).setPhase .transforming).key = s.key := (sameButStream_readPhase s).key_eq
  have hw : ((readPhase s).setPhase .transforming).wsize.toNat = min 4096 s.src.remaining :=
    readPhase_wsize s
  rw [h, wbufRead_window, hk, hw]
  split
  · rename_i hj
    refine windowByte_congr hj fun i hi => ?_
    rw [State.setPhase_wbufRead, readPhase_wbufRead, if_pos hi]
  · rename_i hj
    have hle := partition_tpos_add_t (min 4096 s.src.remaining)
    have htpos := partition_tpos_eq (min 4096 s.src.remaining)
    have hz : min 4096 s.src.remaining - j = 0 := Nat.sub_eq_zero_of_le (Nat.le_of_not_lt hj)
    simp only [windowByte_eq]
    rw [if_neg (by omega), if_neg (by omega), State.setPhase_wbufRead, readPhase_wbufRead, if_neg hj,
      hz, tailMask_zero]
    simp

/-- The bytes pushed by one turn: the transformed window (R162, R168). -/
theorem streamTurn_dst (dir : Dir) (s : State) :
    (streamTurn dir s).dst = s.dst ++ wholeImage dir s.key (s.src.pending.take 4096) := by
  have h : (streamTurn dir s).dst = (window dir ((readPhase s).setPhase .transforming)).dst ++
      (List.range (streamTurn dir s).wsize.toNat).map (streamTurn dir s).wbufRead := rfl
  have hd : (window dir ((readPhase s).setPhase .transforming)).dst = s.dst := by
    rw [sameButWbuf_window]
    exact readPhase_dst s
  have hl : (s.src.pending.take 4096).length = min 4096 s.src.remaining := by
    rw [List.length_take, Source.length_pending]
  rw [h, hd, streamTurn_wsize, wholeImage, hl]
  congr 1
  refine List.map_congr_left fun i hi => ?_
  rw [List.mem_range] at hi
  rw [streamTurn_wbufRead, if_pos hi]

theorem streamTurn_wf (dir : Dir) {s : State} (h : s.wbuf.wf 4096 = true) :
    (streamTurn dir s).wbuf.wf 4096 = true := by
  have hr : (readPhase s).wbuf.wf 4096 = true := by
    refine State.wbufFill_wf (size := 4096) h ?_
    rw [Source.take_eq]
    simp only [Config.windowMax, length_taken]
    omega
  exact window_wf dir (s := (readPhase s).setPhase .transforming) hr
    (by rw [State.setPhase_wsize, readPhase_wsize]; omega)

/-! ### One partition of the whole stream (R167) -/

theorem mixedByte_shift (dir : Dir) (key : Key) (rd : Nat → Byte) (k off n : Nat) (hn : 2 ≤ n)
    (i : Nat) :
    mixedByte dir key rd (k + off) n hn (k + i) =
      mixedByte dir key (fun j => rd (k + j)) off n hn i := by
  have hb : blockOf rd (k + off) n = blockOf (fun j => rd (k + j)) off n := by
    refine List.map_congr_left fun p _ => ?_
    simp only [readLE, Nat.add_assoc]
  unfold mixedByte
  rw [hb, show k + i - (k + off) = i - off by omega]

/-- A window that begins with whole 256-byte runs is those runs and then the rest. -/
theorem windowByte_shift (dir : Dir) (key : Key) (rd : Nat → Byte) (m n i : Nat) :
    windowByte dir key rd (256 * m + n) (256 * m + i) =
      windowByte dir key (fun j => rd (256 * m + j)) n i := by
  obtain ⟨h1, -, -, h4, -, h6, h7⟩ := partition_spec (256 * m + n)
  obtain ⟨g1, -, -, g4, -, g6, g7⟩ := partition_spec n
  have hc : (256 * m + n) / 256 = m + n / 256 := by omega
  have hr : (256 * m + n) % 256 = n % 256 := by omega
  have hp : (partition (256 * m + n)).p = (partition n).p := by
    rw [hr] at h6 h7
    by_cases hl : 2 ≤ n % 256 / 4
    · rw [(h6 hl).1, (g6 hl).1]
    · rw [(h7 (by omega)).1, (g7 (by omega)).1]
  have hcc : (partition (256 * m + n)).c = m + (partition n).c := by rw [h1, g1, hc]
  have ht : (partition (256 * m + n)).tpos = 256 * m + (partition n).tpos := by
    rw [h4, g4, hp, hc]; omega
  simp only [windowByte_eq, hcc, ht, hp]
  by_cases hi : i < 256 * (partition n).c
  · rw [if_pos (by omega), if_pos hi,
      show 256 * ((256 * m + i) / 256) = 256 * m + 256 * (i / 256) by omega, mixedByte_shift]
  · rw [if_neg (by omega), if_neg hi]
    by_cases hi' : i < (partition n).tpos
    · rw [if_pos (by omega), if_pos hi']
      split
      · rw [show 256 * (m + (partition n).c) = 256 * m + 256 * (partition n).c by omega,
          mixedByte_shift]
      · rfl
    · rw [if_neg (by omega), if_neg hi', show 256 * m + n - (256 * m + i) = n - i by omega]

/-- A byte of a whole 256-byte run does not depend on what follows the run (41_block_cipher.md
R124). -/
theorem windowByte_of_lt (dir : Dir) (key : Key) (rd : Nat → Byte) {size i : Nat}
    (hi : i < 256 * (size / 256)) :
    windowByte dir key rd size i = mixedByte dir key rd (256 * (i / 256)) 64 (by decide) i := by
  simp only [windowByte_eq]
  rw [partition_c, if_pos hi]

theorem length_wholeImage (dir : Dir) (key : Key) (bs : List Byte) :
    (wholeImage dir key bs).length = bs.length := by
  simp [wholeImage]

theorem getElem_wholeImage (dir : Dir) (key : Key) (bs : List Byte) (i : Nat)
    (hi : i < (wholeImage dir key bs).length) :
    (wholeImage dir key bs)[i] = windowByte dir key (listByte bs) bs.length i := by
  simp [wholeImage]

theorem listByte_append_left {a : List Byte} (b : List Byte) {j : Nat} (hj : j < a.length) :
    listByte (a ++ b) j = listByte a j := by
  simp only [listByte, List.getD_eq_getElem?_getD, List.getElem?_append_left hj]

theorem listByte_append_right (a b : List Byte) (j : Nat) :
    listByte (a ++ b) (a.length + j) = listByte b j := by
  simp only [listByte, List.getD_eq_getElem?_getD,
    List.getElem?_append_right (Nat.le_add_right a.length j), Nat.add_sub_cancel_left]

/-- Whole 256-byte runs in front are transformed by themselves (R167). -/
theorem wholeImage_append (dir : Dir) (key : Key) {a : List Byte} (b : List Byte) {m : Nat}
    (ha : a.length = 256 * m) :
    wholeImage dir key (a ++ b) = wholeImage dir key a ++ wholeImage dir key b := by
  refine List.ext_getElem (by simp [length_wholeImage]) fun i hi hi' => ?_
  rw [getElem_wholeImage, List.getElem_append]
  rw [length_wholeImage, List.length_append] at hi
  split
  · rename_i h
    rw [length_wholeImage] at h
    rw [getElem_wholeImage, windowByte_of_lt, windowByte_of_lt]
    · exact mixedByte_congr _ _ fun j _ hj => listByte_append_left b (by omega)
    · omega
    · rw [List.length_append]; omega
  · rename_i h
    rw [length_wholeImage] at h
    rw [getElem_wholeImage, List.length_append, ha]
    obtain ⟨k, rfl⟩ := Nat.exists_eq_add_of_le (Nat.le_of_not_lt h)
    rw [ha, windowByte_shift, length_wholeImage, ha, Nat.add_sub_cancel_left]
    congr 1
    funext j
    rw [← ha, listByte_append_right]

/-! ### The whole stream (R162) -/

theorem sameButStream_streamLoop (dir : Dir) (k : Nat) (s : State) :
    s.SameButStream (streamLoop dir k s) := by
  induction k generalizing s with
  | zero => rfl
  | succ k ih =>
    rw [streamLoop]
    split
    · exact sameButStream_streamTurn dir s
    · exact (sameButStream_streamTurn dir s).trans (ih _)

theorem streamLoop_wf (dir : Dir) (k : Nat) {s : State} (h : s.wbuf.wf 4096 = true) :
    (streamLoop dir k s).wbuf.wf 4096 = true := by
  induction k generalizing s with
  | zero => exact h
  | succ k ih =>
    rw [streamLoop]
    split
    · exact streamTurn_wf dir h
    · exact ih (streamTurn_wf dir h)

/-- What is left of the source after one turn. -/
theorem streamTurn_remaining (dir : Dir) (s : State) :
    (streamTurn dir s).src.remaining = s.src.remaining - 4096 := by
  rw [streamTurn_src]
  simp only [Source.remaining]
  omega

theorem streamTurn_pending (dir : Dir) (s : State) :
    (streamTurn dir s).src.pending = s.src.pending.drop 4096 := by
  rw [streamTurn_src]
  simp only [Source.pending, List.drop_drop]
  by_cases h : 4096 ≤ s.src.remaining
  · rw [show min 4096 s.src.remaining = 4096 by omega]
  · have h' : s.src.bytes.length - s.src.cursor < 4096 := Nat.lt_of_not_le h
    rw [List.drop_eq_nil_of_le (by simp only [Source.remaining]; omega),
      List.drop_eq_nil_of_le (by omega)]

/-- What the loop leaves in `SRC`, `DST` and `WSIZE`, and that its bound of turns is enough. -/
theorem streamLoop_spec (dir : Dir) (k : Nat) (s : State) (hk : s.src.remaining / 4096 < k) :
    (streamLoop dir k s).dst = s.dst ++ wholeImage dir s.key s.src.pending ∧
    (streamLoop dir k s).src = { s.src with cursor := s.src.cursor + s.src.remaining } ∧
    (streamLoop dir k s).wsize.toNat = lastWindow s.src.remaining := by
  induction k generalizing s with
  | zero => omega
  | succ k ih =>
    rw [streamLoop]
    dsimp only
    have hrem := streamTurn_remaining dir s
    split
    · rename_i h0
      rw [hrem] at h0
      have htake : s.src.pending.take 4096 = s.src.pending :=
        List.take_of_length_le (by rw [Source.length_pending]; omega)
      refine ⟨?_, ?_, ?_⟩
      · rw [streamTurn_dst, htake]
      · rw [streamTurn_src, show min 4096 s.src.remaining = s.src.remaining by omega]
      · rw [streamTurn_wsize, lastWindow_eq]
        split <;> omega
    · rename_i h0
      rw [hrem] at h0
      have hkey := (sameButStream_streamTurn dir s).key_eq
      obtain ⟨hd, hs, hw⟩ := ih (streamTurn dir s) (by rw [hrem]; omega)
      have hlen : (s.src.pending.take 4096).length = 256 * 16 := by
        rw [List.length_take, Source.length_pending]; omega
      refine ⟨?_, ?_, ?_⟩
      · rw [hd, streamTurn_dst, hkey, streamTurn_pending, List.append_assoc,
          ← wholeImage_append dir s.key _ hlen, List.take_append_drop]
      · rw [hs, streamTurn_remaining, streamTurn_src]
        simp only [Source.mk.injEq, true_and]
        omega
      · rw [hw, hrem, lastWindow_eq, lastWindow_eq]
        split <;> split <;> omega

theorem lastWindow_le (len : Nat) : lastWindow len ≤ len := by
  simp only [lastWindow_eq]
  split <;> omega

/-- What the loop leaves in `WBUF` (R162). -/
theorem streamLoop_wbufRead (dir : Dir) (k : Nat) (s : State) (hk : s.src.remaining / 4096 < k)
    (i : Nat) :
    (streamLoop dir k s).wbufRead i =
      streamBuffer s.wbufRead (wholeImage dir s.key s.src.pending) i := by
  induction k generalizing s with
  | zero => omega
  | succ k ih =>
    have hrem := streamTurn_remaining dir s
    have hlen := Source.length_pending s.src
    rw [streamLoop]
    split
    · rename_i h0
      rw [hrem] at h0
      have htake : s.src.pending.take 4096 = s.src.pending :=
        List.take_of_length_le (by omega)
      have hlast : lastWindow s.src.remaining = s.src.remaining := by
        simp only [lastWindow_eq]
        split <;> omega
      rw [streamTurn_wbufRead, htake, show min 4096 s.src.remaining = s.src.remaining by omega]
      simp only [streamBuffer_eq, length_wholeImage, hlen, hlast, Nat.sub_self, Nat.zero_add]
      by_cases hi : i < s.src.remaining
      · rw [if_pos hi, if_pos hi, listByte, List.getD_eq_getElem _ _ (by
          rwa [length_wholeImage, hlen]), getElem_wholeImage, hlen]
      · rw [if_neg hi, if_neg hi, if_neg (by omega)]
    · rename_i h0
      rw [hrem] at h0
      have hkey := (sameButStream_streamTurn dir s).key_eq
      have hA : (s.src.pending.take 4096).length = 256 * 16 := by
        rw [List.length_take]; omega
      have happ : wholeImage dir s.key s.src.pending =
          wholeImage dir s.key (s.src.pending.take 4096) ++
            wholeImage dir s.key (s.src.pending.drop 4096) := by
        rw [← wholeImage_append dir s.key _ hA, List.take_append_drop]
      have hAlen : (wholeImage dir s.key (s.src.pending.take 4096)).length = 4096 := by
        rw [length_wholeImage, hA]
      have hBlen : (wholeImage dir s.key (s.src.pending.drop 4096)).length =
          s.src.remaining - 4096 := by
        rw [length_wholeImage, List.length_drop, hlen]
      have hright : ∀ j, listByte (wholeImage dir s.key s.src.pending) (4096 + j) =
          listByte (wholeImage dir s.key (s.src.pending.drop 4096)) j := fun j => by
        have h := listByte_append_right (wholeImage dir s.key (s.src.pending.take 4096))
          (wholeImage dir s.key (s.src.pending.drop 4096)) j
        rw [happ]
        rwa [hAlen] at h
      have hlast : lastWindow (s.src.remaining - 4096) = lastWindow s.src.remaining := by
        simp only [lastWindow_eq]
        split <;> split <;> omega
      have hle := lastWindow_le (s.src.remaining - 4096)
      have hstart : (s.src.remaining - 4096 - lastWindow s.src.remaining) % 4096 = 0 := by
        simp only [lastWindow_eq]
        split <;> omega
      rw [hlast] at hle
      rw [ih (streamTurn dir s) (by rw [hrem]; omega), streamTurn_pending, hkey]
      simp only [streamBuffer_eq, hBlen, hlast, length_wholeImage, hlen]
      by_cases h1 : i < lastWindow s.src.remaining
      · rw [if_pos h1, if_pos h1, ← hright,
          show 4096 + (s.src.remaining - 4096 - lastWindow s.src.remaining + i) =
            s.src.remaining - lastWindow s.src.remaining + i by omega]
      · rw [if_neg h1, if_neg h1]
        by_cases h2 : i < 4096
        · rw [if_pos (⟨h2, by omega⟩ : i < 4096 ∧ 4096 ≤ s.src.remaining - lastWindow s.src.remaining)]
          by_cases h3 : 4096 ≤ s.src.remaining - 4096 - lastWindow s.src.remaining
          · rw [if_pos ⟨h2, h3⟩, ← hright,
              show 4096 + (s.src.remaining - 4096 - lastWindow s.src.remaining - 4096 + i) =
                s.src.remaining - lastWindow s.src.remaining - 4096 + i by omega]
          · rw [if_neg (by omega), streamTurn_wbufRead,
              if_pos (by omega : i < min 4096 s.src.remaining),
              show min 4096 s.src.remaining = (s.src.pending.take 4096).length by omega,
              show s.src.remaining - lastWindow s.src.remaining - 4096 + i = i by omega, happ,
              listByte_append_left _ (by omega), listByte, List.getD_eq_getElem _ _ (by omega),
              getElem_wholeImage]
        · rw [if_neg (by omega), if_neg (by omega), streamTurn_wbufRead,
            if_neg (by omega : ¬ i < min 4096 s.src.remaining)]

/-- What `Stream(dir)` leaves in `WBUF` (R162). -/
theorem stream_wbufRead (dir : Dir) (s : State) (i : Nat) :
    (stream dir s).wbufRead i =
      streamBuffer s.wbufRead (wholeImage dir s.key s.src.pending) i :=
  streamLoop_wbufRead dir _ s (Nat.lt_succ_self _) i

/-- Everything `Stream(dir)` does but to `WBUF` (R162, R166, R167). -/
theorem stream_spec (dir : Dir) (s : State) :
    stream dir s = { s with
      phase := .done
      wsize := (stream dir s).wsize
      wbuf := (stream dir s).wbuf
      src := { s.src with cursor := s.src.cursor + s.src.remaining }
      dst := s.dst ++ wholeImage dir s.key s.src.pending } ∧
    (stream dir s).wsize.toNat = lastWindow s.src.remaining := by
  obtain ⟨hd, hs, hw⟩ := streamLoop_spec dir (s.src.remaining / Config.windowMax + 1) s
    (Nat.lt_succ_self _)
  refine ⟨?_, hw⟩
  have hsame : s.SameButStream (stream dir s) :=
    (sameButStream_streamLoop dir (s.src.remaining / Config.windowMax + 1) s).trans rfl
  have hd' : (stream dir s).dst = s.dst ++ wholeImage dir s.key s.src.pending := hd
  have hs' : (stream dir s).src = { s.src with cursor := s.src.cursor + s.src.remaining } := hs
  have hp' : (stream dir s).phase = .done := rfl
  rw [← hd', ← hs', ← hp']
  exact hsame

theorem stream_wf (dir : Dir) {s : State} (h : s.wbuf.wf 4096 = true) :
    (stream dir s).wbuf.wf 4096 = true := streamLoop_wf dir _ h

end Sys2Proof.Machine
end

