-- ==== Sys2Proof/Laws/Step.lean ====
section
/-! SUPPORT. Everything a command and a step can do: each command raises its error or has its effect,
and a step is a command or one settled act of the host. -/

namespace Sys2Proof.Machine

/-! ### When a command raises its error (60_exceptions.md R181 to R186) -/

theorem execKeyld_short {s : State} (h : s.slen.toNat < 16) :
    execKeyld s = .next { s with phase := .idle, err := .invalidKey } := by
  have h' : s.begin.slen.toNat < Config.keyBytes := h
  unfold execKeyld
  simp only [if_pos h']
  rfl

theorem blockCommand_illegal {dir : Dir} {off : BitVec 13} {n : BitVec 7} {s : State}
    (h : ¬ BlockLegal off n) :
    blockCommand dir off n s = .next { s with phase := .idle, err := .illegalCommand } := by
  unfold blockCommand
  simp only [dif_neg h]
  rfl

theorem blockCommand_noKey {dir : Dir} {off : BitVec 13} {n : BitVec 7} {s : State}
    (h : BlockLegal off n) (hk : s.keyValid = false) :
    blockCommand dir off n s = .next { s with phase := .idle, err := .uninitializedKey } := by
  have hk' : ¬ s.begin.keyValid = true := by simp [hk]
  unfold blockCommand
  simp only [dif_pos h, if_neg hk']
  rfl

theorem execTailx_illegal {start : BitVec 13} {s : State} (h : ¬ TailLegal start s.wsize) :
    execTailx start s = .next { s with phase := .idle, err := .illegalCommand } := by
  have h' : ¬ TailLegal start s.begin.wsize := h
  unfold execTailx
  simp only [dif_neg h']
  rfl

theorem windowCommand_illegal {dir : Dir} {s : State} (h : ¬ WindowLegal s.wsize) :
    windowCommand dir s = .next { s with phase := .idle, err := .illegalCommand } := by
  have h' : ¬ WindowLegal s.begin.wsize := h
  unfold windowCommand
  simp only [if_neg h']
  rfl

theorem windowCommand_noKey {dir : Dir} {s : State} (h : WindowLegal s.wsize)
    (hk : s.keyValid = false) :
    windowCommand dir s = .next { s with phase := .idle, err := .uninitializedKey } := by
  have h' : WindowLegal s.begin.wsize := h
  have hk' : ¬ s.begin.keyValid = true := by simp [hk]
  unfold windowCommand
  simp only [if_pos h', if_neg hk']
  rfl

theorem streamCommand_noKey {dir : Dir} {s : State} (hk : s.keyValid = false) :
    streamCommand dir s = .next { s with phase := .idle, err := .uninitializedKey } := by
  have hk' : ¬ s.begin.keyValid = true := by simp [hk]
  unfold streamCommand
  simp only [if_neg hk']
  rfl

theorem streamCommand_noSource {dir : Dir} {s : State} (hk : s.keyValid = true)
    (ha : s.src.attached = false) :
    streamCommand dir s = .next { s with phase := .idle, err := .nullInput } := by
  have hk' : s.begin.keyValid = true := hk
  have ha' : ¬ s.begin.src.attached = true := by simp [ha]
  unfold streamCommand
  simp only [if_pos hk', if_neg ha']
  rfl

/-! ### What a command does when it raises none -/

theorem execKeyld_ok {s : State} (h : 16 ≤ s.slen.toNat) :
    execKeyld s = .next { s with
      phase := .idle, err := .none, key := s.deriveKey, keyValid := true } := by
  have h' : ¬ s.begin.slen.toNat < Config.keyBytes := Nat.not_lt.mpr h
  unfold execKeyld
  simp only [if_neg h']
  rfl

/-- A block command leaves the block mixed, and only `WBUF` and the working registers differ beside
`PHASE` and `ERR`. -/
theorem blockCommand_ok {dir : Dir} {off : BitVec 13} {n : BitVec 7} {s : State}
    (h : BlockLegal off n) (hk : s.keyValid = true) :
    blockCommand dir off n s = .next { s with
      phase := .idle, err := .none
      wbuf := (runBlock dir off.toNat n.toNat h.1 s.begin).wbuf
      mix := .free s.draws, draws := s.draws + 1 } := by
  have hk' : s.begin.keyValid = true := hk
  unfold blockCommand
  simp only [dif_pos h, if_pos hk']
  exact (congrArg (fun u => complete u.releaseMix)
    (sameButWbuf_runBlock dir off.toNat n.toNat h.1 s.begin)).trans rfl

theorem execTailx_ok {start : BitVec 13} {s : State} (h : TailLegal start s.wsize) :
    execTailx start s = .next { s with
      phase := .idle, err := .none
      wbuf := (tailXor s.wsize.toNat (s.wsize.toNat - start.toNat) h.2.2 s.begin).wbuf
      chk := .free s.draws, draws := s.draws + 1 } := by
  have h' : TailLegal start s.begin.wsize := h
  unfold execTailx
  simp only [dif_pos h']
  exact (congrArg (fun u => complete u.releaseChk)
    (sameButWbuf_tailXor s.wsize.toNat (s.wsize.toNat - start.toNat) h.2.2 s.begin)).trans rfl

theorem windowCommand_ok {dir : Dir} {s : State} (h : WindowLegal s.wsize)
    (hk : s.keyValid = true) :
    windowCommand dir s = .next { s with
      phase := .idle, err := .none
      wbuf := (window dir s.begin).wbuf
      mix := .free s.draws, chk := .free (s.draws + 1), draws := s.draws + 2 } := by
  have h' : WindowLegal s.begin.wsize := h
  have hk' : s.begin.keyValid = true := hk
  unfold windowCommand
  simp only [if_pos h', if_pos hk']
  exact (congrArg (fun u => complete u.releaseMix.releaseChk)
    (sameButWbuf_window dir s.begin)).trans rfl

theorem streamCommand_ok {dir : Dir} {s : State} (hk : s.keyValid = true)
    (ha : s.src.attached = true) :
    streamCommand dir s = .next { s with
      phase := .done, err := .none
      wsize := (stream dir s.begin).wsize
      wbuf := (stream dir s.begin).wbuf
      src := { s.src with cursor := s.src.cursor + s.src.remaining }
      dst := s.dst ++ wholeImage dir s.key s.src.pending
      mix := .free s.draws, chk := .free (s.draws + 1), draws := s.draws + 2 } := by
  have hk' : s.begin.keyValid = true := hk
  have ha' : s.begin.src.attached = true := ha
  unfold streamCommand
  simp only [if_pos hk', if_pos ha']
  exact (congrArg (fun u => complete u.releaseMix.releaseChk) (stream_spec dir s.begin).1).trans rfl

/-! ### What `WBUF` reads as after a command -/

/-- A read of `WBUF` sees the list and the reset number only. -/
theorem State.wbufRead_of_eq {s t : State} (hw : t.wbuf = s.wbuf) (he : t.epoch = s.epoch)
    (a : Nat) : t.wbufRead a = s.wbufRead a := by
  unfold State.wbufRead
  rw [hw, he]

theorem State.SameButWbuf.epoch_eq {s t : State} (h : s.SameButWbuf t) : t.epoch = s.epoch := by
  rw [h]

theorem State.SameButStream.epoch_eq {s t : State} (h : s.SameButStream t) :
    t.epoch = s.epoch := by
  rw [h]

/-- Every byte of `WBUF` after a block command (41_block_cipher.md R121, R122). -/
theorem blockCommand_reads {dir : Dir} {off : BitVec 13} {n : BitVec 7} {s t : State}
    (h : BlockLegal off n) (hk : s.keyValid = true) (ht : blockCommand dir off n s = .next t)
    (a : Nat) :
    t.wbufRead a = (runBlock dir off.toNat n.toNat h.1 s).wbufRead a := by
  rw [blockCommand_ok h hk] at ht
  cases ht
  refine Eq.trans (State.wbufRead_of_eq (s := runBlock dir off.toNat n.toNat h.1 s.begin) ?_ ?_ a) ?_
  · rfl
  · exact (sameButWbuf_runBlock dir off.toNat n.toNat h.1 s.begin).epoch_eq.symm
  rw [wbufRead_runBlock, wbufRead_runBlock]
  rfl

/-- Every byte of `WBUF` after `TAILX` (42_tail_xor.md R138). -/
theorem execTailx_reads {start : BitVec 13} {s t : State} (h : TailLegal start s.wsize)
    (ht : execTailx start s = .next t) (a : Nat) :
    t.wbufRead a = if start.toNat ≤ a ∧ a < s.wsize.toNat then
      s.wbufRead a ^^^ tailMask (s.wsize.toNat - a) else s.wbufRead a := by
  rw [execTailx_ok h] at ht
  cases ht
  refine Eq.trans (State.wbufRead_of_eq
    (s := tailXor s.wsize.toNat (s.wsize.toNat - start.toNat) h.2.2 s.begin) ?_ ?_ a) ?_
  · rfl
  · exact (sameButWbuf_tailXor s.wsize.toNat (s.wsize.toNat - start.toNat) h.2.2
      s.begin).epoch_eq.symm
  rw [wbufRead_tailXor _ _ _ (by omega)]
  have hs : s.wsize.toNat - (s.wsize.toNat - start.toNat) = start.toNat := by omega
  rw [hs]
  rfl

/-- Every byte of `WBUF` after a window command (43_window_chunker.md R150). -/
theorem windowCommand_reads {dir : Dir} {s t : State} (h : WindowLegal s.wsize)
    (hk : s.keyValid = true) (ht : windowCommand dir s = .next t) (a : Nat) :
    t.wbufRead a = windowByte dir s.key s.wbufRead s.wsize.toNat a := by
  rw [windowCommand_ok h hk] at ht
  cases ht
  refine Eq.trans (State.wbufRead_of_eq (s := window dir s.begin) ?_ ?_ a) ?_
  · rfl
  · exact (sameButWbuf_window dir s.begin).epoch_eq.symm
  rw [wbufRead_window]
  rfl

/-- Every byte of `WBUF` after a stream command (44_stream_codec.md R162). -/
theorem streamCommand_reads {dir : Dir} {s t : State} (hk : s.keyValid = true)
    (ha : s.src.attached = true) (ht : streamCommand dir s = .next t) (a : Nat) :
    t.wbufRead a = streamBuffer s.wbufRead (wholeImage dir s.key s.src.pending) a := by
  rw [streamCommand_ok hk ha] at ht
  cases ht
  have he : (stream dir s.begin).epoch = s.epoch := by
    rw [(stream_spec dir s.begin).1]
    rfl
  refine Eq.trans (State.wbufRead_of_eq (s := stream dir s.begin) ?_ ?_ a) ?_
  · rfl
  · exact he.symm
  rw [stream_wbufRead]
  rfl

/-! ### One lemma for all commands -/

/-- The effect of command `i` when it raises no error. -/
def Effect (i : Instr) (s t : State) : Prop :=
  match i with
  | .keyld => 16 ≤ s.slen.toNat ∧ t = { s with
      phase := .idle, err := .none, key := s.deriveKey, keyValid := true }
  | .encb off n => ∃ h : BlockLegal off n, s.keyValid = true ∧ t = { s with
      phase := .idle, err := .none
      wbuf := (runBlock .encrypt off.toNat n.toNat h.1 s.begin).wbuf
      mix := .free s.draws, draws := s.draws + 1 }
  | .decb off n => ∃ h : BlockLegal off n, s.keyValid = true ∧ t = { s with
      phase := .idle, err := .none
      wbuf := (runBlock .decrypt off.toNat n.toNat h.1 s.begin).wbuf
      mix := .free s.draws, draws := s.draws + 1 }
  | .tailx start => ∃ h : TailLegal start s.wsize, t = { s with
      phase := .idle, err := .none
      wbuf := (tailXor s.wsize.toNat (s.wsize.toNat - start.toNat) h.2.2 s.begin).wbuf
      chk := .free s.draws, draws := s.draws + 1 }
  | .encw => WindowLegal s.wsize ∧ s.keyValid = true ∧ t = { s with
      phase := .idle, err := .none
      wbuf := (window .encrypt s.begin).wbuf
      mix := .free s.draws, chk := .free (s.draws + 1), draws := s.draws + 2 }
  | .decw => WindowLegal s.wsize ∧ s.keyValid = true ∧ t = { s with
      phase := .idle, err := .none
      wbuf := (window .decrypt s.begin).wbuf
      mix := .free s.draws, chk := .free (s.draws + 1), draws := s.draws + 2 }
  | .encs => s.keyValid = true ∧ s.src.attached = true ∧ t = { s with
      phase := .done, err := .none
      wsize := (stream .encrypt s.begin).wsize
      wbuf := (stream .encrypt s.begin).wbuf
      src := { s.src with cursor := s.src.cursor + s.src.remaining }
      dst := s.dst ++ wholeImage .encrypt s.key s.src.pending
      mix := .free s.draws, chk := .free (s.draws + 1), draws := s.draws + 2 }
  | .decs => s.keyValid = true ∧ s.src.attached = true ∧ t = { s with
      phase := .done, err := .none
      wsize := (stream .decrypt s.begin).wsize
      wbuf := (stream .decrypt s.begin).wbuf
      src := { s.src with cursor := s.src.cursor + s.src.remaining }
      dst := s.dst ++ wholeImage .decrypt s.key s.src.pending
      mix := .free s.draws, chk := .free (s.draws + 1), draws := s.draws + 2 }

/-- The errors command `i` can raise (60_exceptions.md R180). -/
def CanRaise (i : Instr) (e : ErrCode) : Prop :=
  match i with
  | .keyld => e = .invalidKey
  | .encb _ _ | .decb _ _ | .encw | .decw => e = .illegalCommand ∨ e = .uninitializedKey
  | .tailx _ => e = .illegalCommand
  | .encs | .decs => e = .uninitializedKey ∨ e = .nullInput

theorem blockCommand_cases (dir : Dir) (off : BitVec 13) (n : BitVec 7) (s : State) :
    (∃ e, (e = .illegalCommand ∨ e = .uninitializedKey) ∧
      blockCommand dir off n s = .next { s with phase := .idle, err := e }) ∨
    (BlockLegal off n ∧ s.keyValid = true) := by
  by_cases h : BlockLegal off n
  · by_cases hk : s.keyValid = true
    · exact .inr ⟨h, hk⟩
    · exact .inl ⟨_, .inr rfl, blockCommand_noKey h (Bool.eq_false_of_not_eq_true hk)⟩
  · exact .inl ⟨_, .inl rfl, blockCommand_illegal h⟩

theorem windowCommand_cases (dir : Dir) (s : State) :
    (∃ e, (e = .illegalCommand ∨ e = .uninitializedKey) ∧
      windowCommand dir s = .next { s with phase := .idle, err := e }) ∨
    (WindowLegal s.wsize ∧ s.keyValid = true) := by
  by_cases h : WindowLegal s.wsize
  · by_cases hk : s.keyValid = true
    · exact .inr ⟨h, hk⟩
    · exact .inl ⟨_, .inr rfl, windowCommand_noKey h (Bool.eq_false_of_not_eq_true hk)⟩
  · exact .inl ⟨_, .inl rfl, windowCommand_illegal h⟩

theorem streamCommand_cases (dir : Dir) (s : State) :
    (∃ e, (e = .uninitializedKey ∨ e = .nullInput) ∧
      streamCommand dir s = .next { s with phase := .idle, err := e }) ∨
    (s.keyValid = true ∧ s.src.attached = true) := by
  by_cases hk : s.keyValid = true
  · by_cases ha : s.src.attached = true
    · exact .inr ⟨hk, ha⟩
    · exact .inl ⟨_, .inr rfl, streamCommand_noSource hk (Bool.eq_false_of_not_eq_true ha)⟩
  · exact .inl ⟨_, .inl rfl, streamCommand_noKey (Bool.eq_false_of_not_eq_true hk)⟩

/-- Everything a command can do: it raises one of its errors, which changes `PHASE` and `ERR` only, or
it has its effect (60_exceptions.md R185). -/
theorem exec_cases (i : Instr) (s : State) :
    (∃ e, CanRaise i e ∧ exec i s = .next { s with phase := .idle, err := e }) ∨
    (∃ t, Effect i s t ∧ exec i s = .next t) := by
  cases i with
  | keyld =>
    by_cases h : s.slen.toNat < 16
    · exact .inl ⟨_, rfl, execKeyld_short h⟩
    · exact .inr ⟨_, ⟨Nat.le_of_not_lt h, rfl⟩, execKeyld_ok (Nat.le_of_not_lt h)⟩
  | encb off n =>
    obtain h | ⟨h, hk⟩ := blockCommand_cases .encrypt off n s
    · exact .inl h
    · exact .inr ⟨_, ⟨h, hk, rfl⟩, blockCommand_ok h hk⟩
  | decb off n =>
    obtain h | ⟨h, hk⟩ := blockCommand_cases .decrypt off n s
    · exact .inl h
    · exact .inr ⟨_, ⟨h, hk, rfl⟩, blockCommand_ok h hk⟩
  | tailx start =>
    by_cases h : TailLegal start s.wsize
    · exact .inr ⟨_, ⟨h, rfl⟩, execTailx_ok h⟩
    · exact .inl ⟨_, rfl, execTailx_illegal h⟩
  | encw =>
    obtain h | ⟨h, hk⟩ := windowCommand_cases .encrypt s
    · exact .inl h
    · exact .inr ⟨_, ⟨h, hk, rfl⟩, windowCommand_ok h hk⟩
  | decw =>
    obtain h | ⟨h, hk⟩ := windowCommand_cases .decrypt s
    · exact .inl h
    · exact .inr ⟨_, ⟨h, hk, rfl⟩, windowCommand_ok h hk⟩
  | encs =>
    obtain h | ⟨hk, ha⟩ := streamCommand_cases .encrypt s
    · exact .inl h
    · exact .inr ⟨_, ⟨hk, ha, rfl⟩, streamCommand_ok hk ha⟩
  | decs =>
    obtain h | ⟨hk, ha⟩ := streamCommand_cases .decrypt s
    · exact .inl h
    · exact .inr ⟨_, ⟨hk, ha, rfl⟩, streamCommand_ok hk ha⟩

/-! ### A step -/

/-- The word written to `CMD` is a command, whole (10_state.md R28). -/
theorem hostMove_commandAct (c : Word) (s : State) :
    hostMove (commandAct c) s = .command c (s.answer .completed) := rfl

theorem step_nil {s : State} (h : s.host = []) : step s = .next s := by
  simp [step, h]

theorem step_command {s : State} {c : Word} {rest : List HostAct}
    (h : s.host = commandAct c :: rest) :
    step s = runCommand c ((s.take rest).answer .completed) := by
  simp [step, h, hostMove_commandAct]

/-- The map of the register block with the parameters' values written out (R51, R53). -/
theorem target?_eq (addr : Addr) (n : Width) :
    target? addr n =
      if addr.toNat % n.bytes ≠ 0 then none
      else if addr.toNat < 0x0020 then
        if n = .w4 then some (registerAt (addr.toNat / 4)) else none
      else if 0x0040 ≤ addr.toNat ∧ addr.toNat < 0x0080 then some (.secret (addr.toNat - 0x0040))
      else if 0x1000 ≤ addr.toNat then some (.wbuf (addr.toNat - 0x1000))
      else none := rfl

/-- An aligned transaction in the secret buffer reaches its bytes (R51). -/
theorem target?_secret {k : Nat} {n : Width} (hk : k < 64) (hm : k % n.bytes = 0) :
    target? (BitVec.ofNat 13 (0x0040 + k)) n = some (.secret k) := by
  have ha : (BitVec.ofNat 13 (0x0040 + k)).toNat = 0x0040 + k := by
    rw [BitVec.toNat_ofNat]; omega
  rw [target?_eq, ha, if_neg, if_neg (by omega), if_pos (by omega), Nat.add_sub_cancel_left]
  cases n <;> simp only [Width.bytes] at * <;> omega

/-- An aligned transaction in the window buffer reaches its bytes (R51). -/
theorem target?_wbuf {i : Nat} {n : Width} (hi : i < 4096) (hm : i % n.bytes = 0) :
    target? (BitVec.ofNat 13 (0x1000 + i)) n = some (.wbuf i) := by
  have ha : (BitVec.ofNat 13 (0x1000 + i)).toNat = 0x1000 + i := by
    rw [BitVec.toNat_ofNat]; omega
  rw [target?_eq, ha, if_neg, if_neg (by omega), if_neg (by omega), if_pos (by omega),
    Nat.add_sub_cancel_left]
  cases n <;> simp only [Width.bytes] at * <;> omega

/-- Where an accepted transaction goes: a register, or the bytes of one buffer, all inside it
(20_memory.md R51, R53). -/
theorem target?_cases {addr : Addr} {n : Width} {t : Target} (h : target? addr n = some t) :
    (addr.toNat < 0x0020 ∧ n = .w4 ∧ t = registerAt (addr.toNat / 4)) ∨
    (∃ k, t = .secret k ∧ addr.toNat = 0x0040 + k ∧ k + n.bytes ≤ 64) ∨
    (∃ i, t = .wbuf i ∧ addr.toNat = 0x1000 + i ∧ i + n.bytes ≤ 4096) := by
  have ha := addr_lt addr
  rw [target?_eq] at h
  by_cases hm : addr.toNat % n.bytes ≠ 0
  · rw [if_pos hm] at h; exact absurd h (by simp)
  rw [if_neg hm] at h
  by_cases hr : addr.toNat < 0x0020
  · rw [if_pos hr] at h
    by_cases hn : n = .w4
    · rw [if_pos hn, Option.some.injEq] at h
      exact .inl ⟨hr, hn, h.symm⟩
    · rw [if_neg hn] at h; exact absurd h (by simp)
  rw [if_neg hr] at h
  by_cases hs : 0x0040 ≤ addr.toNat ∧ addr.toNat < 0x0080
  · rw [if_pos hs, Option.some.injEq] at h
    refine .inr (.inl ⟨_, h.symm, by omega, ?_⟩)
    cases n <;> simp only [Width.bytes] at hm ⊢ <;> omega
  rw [if_neg hs] at h
  by_cases hw : 0x1000 ≤ addr.toNat
  · rw [if_pos hw, Option.some.injEq] at h
    refine .inr (.inr ⟨_, h.symm, by omega, ?_⟩)
    cases n <;> simp only [Width.bytes] at hm ⊢ <;> omega
  · rw [if_neg hw] at h; exact absurd h (by simp)

/-- A register of the block is none of the buffers. -/
theorem registerAt_cases (r : Nat) :
    registerAt r = .cmd ∨ registerAt r = .status ∨ registerAt r = .wsize ∨ registerAt r = .slen ∨
      ∃ j, registerAt r = .key j := by
  unfold registerAt
  split
  · exact .inl rfl
  · exact .inr (.inl rfl)
  · exact .inr (.inr (.inl rfl))
  · exact .inr (.inr (.inr (.inl rfl)))
  · exact .inr (.inr (.inr (.inr ⟨_, rfl⟩)))

/-- A read changes nothing but the answer (R60). -/
theorem settleRead_frame (s : State) (addr : Addr) (n : Width) :
    ∃ r, settleRead s addr n = .settled (s.answer r) := by
  unfold settleRead
  split
  · exact ⟨_, rfl⟩
  · exact ⟨_, rfl⟩

end Sys2Proof.Machine
end

