-- ==== Sys2Proof/Tests/Slice0.lean ====
section
/-! SUPPORT. Tests: what WellFormed refuses, words written out from the spec's encodings, vectors of
95_test_vectors.md, and a witness for the hypotheses of every statement that has some. -/

namespace Sys2Proof.Tests

open Sys2Proof Sys2Proof.Machine

/-! ### Small states -/

/-- The bytes `bs` from address `a` on. -/
def bytesAt (a : Nat) : List Byte → Memory
  | [] => []
  | b :: bs => (a, b) :: bytesAt (a + 1) bs

/-- The secret of 95_test_vectors.md, V1 row a. -/
def secretK : List Byte :=
  [0x30, 0x31, 0x32, 0x33, 0x34, 0x35, 0x36, 0x37, 0x38, 0x39, 0x41, 0x42, 0x43, 0x44, 0x45, 0x46]

/-- The key K of 95_test_vectors.md. -/
def keyK : Key := { k0 := 0x33323130, k1 := 0x37363534, k2 := 0x42413938, k3 := 0x46454443 }

/-- The state after reset but for a valid key K. -/
def keyed : State := { State.reset with key := keyK, keyValid := true }

/-- `s` with `bs` in `WBUF` from index `a` on and `WSIZE = size`. -/
def withWindow (s : State) (a : Nat) (bs : List Byte) (size : Nat) : State :=
  { s with wbuf := bytesAt a bs, wsize := BitVec.ofNat 13 size }

/-- `s` with `bs` at the source port. -/
def withSource (s : State) (bs : List Byte) : State :=
  { s with src := { attached := true, bytes := bs, cursor := 0 } }

/-- `s` with `SLEN = n` and the secret K. -/
def withSecret (s : State) (n : Word) : State :=
  { s with secret := bytesAt 0 secretK, slen := n }

/-- `s` with one act of the host to come. -/
def facing (s : State) (act : HostAct) : State := { s with host := [act] }

/-- What `p` gives of the next state of `o`, none after a stop. -/
def seen {α : Type} (o : Host.Outcome State Fault Refusal) (p : State → α) : Option α :=
  match o with
  | .next t => some (p t)
  | .fault _ => none
  | .refused _ => none

/-- The first `n` bytes of `WBUF` from `a` on. -/
def windowOf (s : State) (a n : Nat) : List Byte := (List.range n).map fun k => s.wbufRead (a + k)

/-! ### WellFormed refuses what 30_encoding.md R87 calls illegal -/

theorem test_wellFormed_refuses_one_word : (Instr.encb 0 1).wellFormed = false := by decide
theorem test_wellFormed_refuses_no_word : (Instr.decb 0 0).wellFormed = false := by decide
theorem test_wellFormed_refuses_65_words : (Instr.encb 0 65).wellFormed = false := by decide
theorem test_wellFormed_refuses_unaligned : (Instr.decb 2 2).wellFormed = false := by decide
theorem test_wellFormed_refuses_past_the_buffer : (Instr.encb 4092 2).wellFormed = false := by decide
theorem test_wellFormed_takes_the_last_block :
    (Instr.encb 4088 2).wellFormed = true ∧ (Instr.decb 3840 64).wellFormed = true := by decide

/-! ### Words written out field by field (30_encoding.md R82): RSV2, OFF, RSV1, N, RSV0, OPC -/

theorem test_decode_keyld :
    decode (0b000#3 ++ 0b0000000000000#13 ++ 0b0#1 ++ 0b0000000#7 ++ 0b0000#4 ++ 0b0001#4) =
      .command .keyld := by decide
theorem test_decode_encb :
    decode (0b000#3 ++ 0b0111111111000#13 ++ 0b0#1 ++ 0b0000010#7 ++ 0b0000#4 ++ 0b0010#4) =
      .command (.encb 4088 2) := by decide
theorem test_decode_decb :
    decode (0b000#3 ++ 0b0000100000000#13 ++ 0b0#1 ++ 0b0001011#7 ++ 0b0000#4 ++ 0b0011#4) =
      .command (.decb 256 11) := by decide
theorem test_decode_tailx :
    decode (0b000#3 ++ 0b0111111111001#13 ++ 0b0#1 ++ 0b0000000#7 ++ 0b0000#4 ++ 0b0100#4) =
      .command (.tailx 4089) := by decide
theorem test_decode_encw :
    decode (0b000#3 ++ 0b0000000000000#13 ++ 0b0#1 ++ 0b0000000#7 ++ 0b0000#4 ++ 0b0101#4) =
      .command .encw := by decide
theorem test_decode_decw :
    decode (0b000#3 ++ 0b0000000000000#13 ++ 0b0#1 ++ 0b0000000#7 ++ 0b0000#4 ++ 0b0110#4) =
      .command .decw := by decide
theorem test_decode_encs :
    decode (0b000#3 ++ 0b0000000000000#13 ++ 0b0#1 ++ 0b0000000#7 ++ 0b0000#4 ++ 0b0111#4) =
      .command .encs := by decide
theorem test_decode_decs :
    decode (0b000#3 ++ 0b0000000000000#13 ++ 0b0#1 ++ 0b0000000#7 ++ 0b0000#4 ++ 0b1000#4) =
      .command .decs := by decide

/-- The words of V13 that are illegal whatever `WSIZE` is. -/
theorem test_illegal_words :
    [0x00000000#32, 0xFFFFFFFF#32, 0x00000101#32, 0x00010001#32, 0x00000011#32, 0x00000102#32,
      0x00000002#32, 0x00004102#32, 0x00007F02#32, 0x00008202#32, 0x20000202#32, 0x00020202#32,
      0x0FFC0202#32, 0x0F044002#32, 0x10000202#32, 0x01000104#32, 0x00000009#32, 0x0000000F#32,
      0x00000105#32].all (fun c => decide (decodeLegal c 260 = none)) = true := by decide

/-- The rows of V13 that depend on `WSIZE`. -/
theorem test_legality_by_wsize :
    decodeLegal 0x01000004 260 = some (.tailx 256) ∧ decodeLegal 0x01000004 264 = none ∧
    decodeLegal 0x01000004 255 = none ∧ decodeLegal 0x00000005 4096 = some .encw ∧
    decodeLegal 0x00000005 4097 = none ∧ decodeLegal 0x00000006 4096 = some .decw ∧
    decodeLegal 0x00000007 8191 = some .encs := by decide

theorem test_decodeTableWord : decodeTableWord 32 0x01000B03 = some (.decb 256 11) := by decide

/-! ### The engine: V2 rows 5 and 6, V5 -/

theorem test_mx_row5 :
    mx 0x9E3779B9 0x07060504 0xFFFEFDFC 0 2 keyK = 0x4C0642DE#32 := by decide
theorem test_mx_row6 :
    mx 0x3C6EF372 0x80000000 0x80000001 5 0 keyK = 0x67A528B7#32 := by decide
theorem test_mixEnc_three_words :
    mixEnc [1, 2, 3] 3 (by decide) keyK = [0x9C96E9BA#32, 0x44D5CECD#32, 0xCA37C273#32] := by
  decide +kernel

/-! ### The commands -/

/-- V1 row a. -/
theorem test_keyld :
    seen (exec .keyld (withSecret .reset 16)) (fun t => (t.key, t.status)) =
      some (keyK, 0x00000001#32) := by decide +kernel
/-- V1 row d. -/
theorem test_keyld_short :
    seen (exec .keyld (withSecret keyed 15)) (fun t => (t.key, t.status)) =
      some (keyK, 0x00000011#32) := by decide +kernel
/-- V3. -/
theorem test_encb :
    seen (exec (.encb 0 2) (withWindow keyed 0 [1, 0, 0, 0, 2, 0, 0, 0] 0))
      (fun t => windowOf t 0 8) =
      some [0x55, 0x03, 0x23, 0x89, 0xCC, 0x35, 0xF4, 0xFB] := by decide +kernel
/-- V4, row 6, at the end of the buffer. -/
theorem test_encb_high_bits :
    seen (exec (.encb 4088 2)
      (withWindow keyed 4088 [0x00, 0x00, 0x00, 0x80, 0xFF, 0xFF, 0xFF, 0x7F] 0))
      (fun t => windowOf t 4088 8) =
      some [0x4C, 0x5E, 0x2E, 0xCC, 0x41, 0x8A, 0xEA, 0x72] := by decide +kernel
/-- V6, row 1. -/
theorem test_decb :
    seen (exec (.decb 0 2)
      (withWindow keyed 0 [0x55, 0x03, 0x23, 0x89, 0xCC, 0x35, 0xF4, 0xFB] 0))
      (fun t => windowOf t 0 8) = some [1, 0, 0, 0, 2, 0, 0, 0] := by decide +kernel
/-- V6, row 2: the words `00000001 00000002` under K. -/
theorem test_decb_of_plain :
    seen (exec (.decb 4 2) (withWindow keyed 4 [1, 0, 0, 0, 2, 0, 0, 0] 0))
      (fun t => windowOf t 4 8) =
      some [0xD6, 0x31, 0xFE, 0x33, 0xE1, 0x11, 0xD4, 0xC9] := by decide +kernel
/-- V12, row 1. -/
theorem test_tailx :
    seen (exec (.tailx 256) (withWindow .reset 256 [0, 1, 2, 3] 260))
      (fun t => (windowOf t 256 4, t.err)) = some ([0xB3, 0xB5, 0xB7, 0xB5], .none) := by
  decide +kernel
/-- V12, row 3. -/
theorem test_tailx_seven :
    seen (exec (.tailx 0) (withWindow .reset 0 (List.replicate 7 0xFF) 7))
      (fun t => windowOf t 0 7) = some [0x4F, 0x4E, 0x4D, 0x4C, 0x4B, 0x4A, 0x49] := by
  decide +kernel
/-- V11, `WSIZE = 11`. -/
theorem test_encw :
    seen (exec .encw (withWindow keyed 0 [0, 1, 2, 3, 4, 5, 6, 7, 8, 9, 10] 11))
      (fun t => windowOf t 0 11) =
      some [0x12, 0xD5, 0xFD, 0xD2, 0xD2, 0x75, 0xE6, 0xE3, 0xBC, 0xBC, 0xBC] := by decide +kernel
/-- V11, `WSIZE = 5`: one word is no block. -/
theorem test_encw_no_block :
    seen (exec .encw (withWindow keyed 0 [0, 1, 2, 3, 4] 5)) (fun t => windowOf t 0 5) =
      some [0xB2, 0xB2, 0xB6, 0xB6, 0xB2] := by decide +kernel
/-- V11, the last row. -/
theorem test_decw :
    seen (exec .decw (withWindow keyed 0 [0, 1, 2, 3, 4, 5, 6, 7] 8))
      (fun t => windowOf t 0 8) =
      some [0xD5, 0x9E, 0x03, 0x46, 0xB7, 0xB7, 0x8F, 0xE0] := by decide +kernel
/-- V11, `WSIZE = 15`, as the source of `ENCS`: a block of three words and three tail bytes. -/
theorem test_encs :
    seen (exec .encs (withSource keyed [0, 1, 2, 3, 4, 5, 6, 7, 8, 9, 10, 11, 12, 13, 14]))
      (fun t => (t.dst, t.wsize, t.status)) =
      some ([0x92, 0x2B, 0xA4, 0x26, 0xB3, 0x9E, 0x73, 0x31, 0x56, 0x76, 0xDC, 0x2A, 0xB8, 0xB8,
        0xB8], 15, 0x00000009#32) := by decide +kernel
/-- V16 row k: `ENCS` overwrites an illegal `WSIZE`. -/
theorem test_encs_overwrites_wsize :
    seen (exec .encs (withSource { keyed with wsize := 5000 } [0]))
      (fun t => (t.dst, t.wsize, t.status)) = some ([0xB6], 1, 0x00000009#32) := by decide +kernel
/-- V11, `WSIZE = 9`, as the source of `DECS`. -/
theorem test_decs :
    seen (exec .decs
      (withSource keyed [0x12, 0xD5, 0xFD, 0xD2, 0xD2, 0x75, 0xE6, 0xE3, 0xBE]))
      (fun t => (t.dst, t.src.cursor)) = some ([0, 1, 2, 3, 4, 5, 6, 7, 8], 9) := by decide +kernel

/-- Rows a, d, f, g, h, i and j of V16: the state before, the word, `STATUS` after. -/
theorem test_errors :
    [(State.reset, 0x00000005#32, 0x00000030#32), (State.reset, 0x00000007#32, 0x00000030#32),
      (State.reset, 0x00000000#32, 0x00000040#32), (State.reset, 0x00000102#32, 0x00000040#32),
      ({ State.reset with slen := 10 }, 0x00000001#32, 0x00000010#32),
      (keyed, 0x00000007#32, 0x00000021#32),
      ({ keyed with wsize := 5000 }, 0x00000005#32, 0x00000041#32)].all
      (fun r => decide (seen (runCommand r.2.1 r.1) State.status = some r.2.2)) = true := by
  decide +kernel

/-! ### A step -/

/-- The word placed by `withFetchWord` runs as the very next step. -/
theorem test_step_runs_the_word :
    seen (step (State.reset.withFetchWord 32 0x00000005)) (fun t => (t.err, t.host)) =
      some (.uninitializedKey, []) := by decide +kernel

/-- P4, lines 25 and 26: `WSIZE` keeps bits 12:0. -/
theorem test_wsize_keeps_13_bits :
    seen (step (facing .reset (.memWrite 0x0008 .w4 0xFFFFFFFF)))
      (fun t => t.memRead 0x0008 .w4) = some (some 0x00001FFF#32) := by decide +kernel

/-- 20_memory.md R57: the least significant byte has the lowest address. -/
theorem test_host_byte_order :
    seen (step (facing .reset (.memWrite 0x1FFC .w4 0x0A0B0C0D)))
      (fun t => (windowOf t 4092 4, t.memRead 0x1FFE .w2)) =
      some ([0x0D, 0x0C, 0x0B, 0x0A], some 0x00000A0B#32) := by decide +kernel

/-- 20_memory.md R53: refused transactions, and their neighbours that are accepted. -/
theorem test_refused :
    [target? 0x1001 .w2, target? 0x0002 .w2, target? 0x0004 .w1, target? 0x0020 .w4,
      target? 0x003F .w1, target? 0x0080 .w1, target? 0x0FFC .w4] = List.replicate 7 none ∧
    [target? 0x001C .w4, target? 0x0040 .w1, target? 0x007F .w1, target? 0x1000 .w4,
      target? 0x1FFF .w1] =
      [some (.key 3), some (.secret 0), some (.secret 63), some (.wbuf 0), some (.wbuf 4095)] := by
  decide

/-! ### The hypotheses of the statements can be met -/

/-- Every command ends in a next state. -/
theorem completes (i : Instr) (s : State) : ∃ t, exec i s = .next t := by
  obtain ⟨_, _, h⟩ | ⟨_, _, h⟩ := exec_cases i s
  · exact ⟨_, h⟩
  · exact ⟨_, h⟩

theorem completes_twice (i j : Instr) (s : State) :
    ∃ t u, exec i s = .next t ∧ exec j t = .next u := by
  obtain ⟨t, ht⟩ := completes i s
  obtain ⟨u, hu⟩ := completes j t
  exact ⟨t, u, ht, hu⟩

/-- What is seen of a next state is there. -/
theorem next_of_seen {α : Type} {o : Host.Outcome State Fault Refusal} {p : State → α} {x : α}
    (h : seen o p = some x) : ∃ t, o = .next t ∧ p t = x := by
  cases o with
  | next t => exact ⟨t, rfl, Option.some.inj h⟩
  | fault _ => cases h
  | refused _ => cases h

theorem witness_EncodeOfDecode : decode 0x0FF80202 = .command (.encb 4088 2) := by decide

theorem witness_DecodeIsMaskAndMatch :
    (Mnemonic.TAILX, 0x00000004#32, 0xE000FFFF#32) ∈ Spec.opcodeMap := by decide

theorem witness_ReservedOpcodesRaise :
    (0xFFFFFFF0#32).toNat % 16 = 0 ∧ 9 ≤ (0x00000009#32).toNat % 16 ∧
      9 ≤ (0xFFFFFFFF#32).toNat % 16 := by decide

/-- One word for each clause: `RSV0`, `RSV1`, `RSV2`, `N` of format T, `OFF` of format Z. -/
theorem witness_ReservedBitsRaise :
    [0x00000012#32, 0x00008202#32, 0x20000203#32, 0x00000104#32, 0x00010008#32].all (fun c =>
      decide (1 ≤ c.toNat % 16 ∧ c.toNat % 16 ≤ 8)) = true ∧
    (0x00000012#32).toNat / 2 ^ 4 % 16 ≠ 0 ∧ (0x00008202#32).toNat / 2 ^ 15 % 2 ≠ 0 ∧
    (0x20000203#32).toNat / 2 ^ 29 ≠ 0 ∧ (0x00000104#32).toNat / 2 ^ 8 % 128 ≠ 0 ∧
    (0x00010008#32).toNat / 2 ^ 16 % 8192 ≠ 0 := by decide

theorem witness_StepRunsTheDecodedCommand :
    (facing keyed (.memWrite 0x0000 .w4 0x00004002)).host = .memWrite 0x0000 .w4 0x00004002 :: [] ∧
      decode 0x00004002 = .command (.encb 0 64) := ⟨rfl, by decide⟩

theorem witness_EngineWaitsForTheHost : State.reset.host = [] := rfl

theorem witness_RoundCounts :
    (2 ≤ 2) ∧ (14 ≤ 14 ∧ 14 ≤ 17) ∧ (14 ≤ 17 ∧ 17 ≤ 17) ∧ (18 ≤ 26 ∧ 26 ≤ 26) ∧
      (27 ≤ 52 ∧ 52 ≤ 52) ∧ (53 ≤ 64 ∧ 64 ≤ 64) := by decide

theorem witness_CursorIsThePreviousWord :
    2 ≤ 2 ∧ ([1#32, 2#32] : List Word).length = 2 ∧ 2 ≤ 2 ∧ 0 ≤ 2 := by decide

theorem witness_MixDecAndMixEncAreInverse :
    2 ≤ 2 ∧ ([1#32, 2#32] : List Word).length = 2 := by decide

theorem witness_KeyldDerivesTheKey : 16 ≤ (withSecret .reset 16).slen.toNat ∧ 3 < 4 := by
  decide

theorem witness_KeyldRejectsAShortSecret : (withSecret .reset 15).slen.toNat < 16 := by decide

/-- Two secrets of 16 and of 2^32 - 1 bytes that differ in the seventeenth. -/
theorem witness_KeyldIgnoresBytesBeyondTheSixteenth :
    16 ≤ (withSecret .reset 16).slen.toNat ∧
    16 ≤ ((withSecret .reset 0xFFFFFFFF).secretWrite 16 0x47).slen.toNat ∧
    ∀ k, k < 16 → ((withSecret .reset 0xFFFFFFFF).secretWrite 16 0x47).secretRead k =
      (withSecret .reset 16).secretRead k := by
  refine ⟨by decide, by decide, fun k hk => ?_⟩
  rw [State.secretRead_secretWrite, if_neg (by omega)]
  rfl

/-- The last block of two words and the last of 64; the same for `DECB`. -/
theorem witness_EncbMixesTheBlock :
    BlockLegal 4088 2 ∧ BlockLegal 3840 64 ∧ keyed.keyValid = true ∧ 1 < (2#7).toNat ∧
      (4087 < (4088#13).toNat) := ⟨by decide, by decide, rfl, by decide, by decide⟩

theorem witness_DecbUnmixesTheBlock : BlockLegal 0 2 ∧ BlockLegal 3840 64 ∧ keyed.keyValid = true :=
  ⟨by decide, by decide, rfl⟩

/-- A legal and an illegal block command, each of which ends in a next state. -/
theorem witness_BlockOperandLegality :
    (∃ t, exec (.encb 4088 2) keyed = .next t) ∧ (∃ t, exec (.decb 4092 2) keyed = .next t) :=
  ⟨completes _ _, completes _ _⟩

theorem witness_BlockRoundTrip :
    (∃ t u, exec (.encb 0 64) keyed = .next t ∧ exec (.decb 0 64) t = .next u) ∧
    (∃ t u, exec (.decb 4088 2) keyed = .next t ∧ exec (.encb 4088 2) t = .next u) :=
  ⟨completes_twice _ _ _, completes_twice _ _ _⟩

/-- Seven bytes at the end of the buffer, and no byte. -/
theorem witness_TailxXorsTheTail :
    TailLegal 4089 4096 ∧ TailLegal 4096 4096 ∧ TailLegal 0 0 ∧
      (4089 ≤ 4089 ∧ 4089 < 4096) ∧ 4096 ≤ 4096 := by decide

theorem witness_TailOperandLegality :
    (∃ t, exec (.tailx 4089) { State.reset with wsize := 4096 } = .next t) ∧
    (∃ t, exec (.tailx 4088) { State.reset with wsize := 4096 } = .next t) :=
  ⟨completes _ _, completes _ _⟩

theorem witness_TailxTwiceRestores :
    ∃ t u, exec (.tailx 4089) { State.reset with wsize := 4096 } = .next t ∧
      exec (.tailx 4089) t = .next u :=
  completes_twice _ _ _

/-- The greatest window, and the two sides of the edge case of 43_window_chunker.md R149. -/
theorem witness_PartitionCutsTheWindow :
    4096 ≤ 4096 ∧ (partition 264).l > 1 ∧ (partition 263).l ≤ 1 := by decide

/-- A window of each kind of bytes, and of the greatest length. -/
theorem witness_EncwEncryptsTheWindow :
    (4096#13).toNat ≤ 4096 ∧ keyed.keyValid = true ∧ 15 < (partition 4096).c ∧ 63 < 64 ∧
    2 ≤ (partition 267).p ∧ 1 < (partition 267).p ∧
    ((partition 267).tpos ≤ 264 ∧ 264 < 267) ∧ 267 ≤ 4095 :=
  ⟨by decide, rfl, by decide, by decide, by decide, by decide, by decide, by decide⟩

theorem witness_DecwDecryptsTheWindow :
    (4095#13).toNat ≤ 4096 ∧ keyed.keyValid = true ∧ 14 < (partition 4095).c ∧
    2 ≤ (partition 4095).p ∧ 62 < (partition 4095).p ∧
    ((partition 4095).tpos ≤ 4092 ∧ 4092 < 4095) :=
  ⟨by decide, rfl, by decide, by decide, by decide, by decide⟩

/-- The two sides of `WSIZE ≤ 4096`, and the commands without a condition. -/
theorem witness_WindowLegality :
    (∃ t, exec .encw { keyed with wsize := 4096 } = .next t) ∧
    (∃ t, exec .decw { keyed with wsize := 4097 } = .next t) ∧
    (∃ t, exec .encs (withSource { keyed with wsize := 8191 } []) = .next t) ∧
    (∃ t, exec .decs { keyed with wsize := 8191 } = .next t) ∧
    (∃ t, exec .keyld { keyed with wsize := 8191 } = .next t) :=
  ⟨completes _ _, completes _ _, completes _ _, completes _ _, completes _ _⟩

theorem witness_WindowRoundTrip :
    (∃ t u, exec .encw { keyed with wsize := 267 } = .next t ∧ exec .decw t = .next u) ∧
    (∃ t u, exec .decw { keyed with wsize := 4096 } = .next t ∧ exec .encw t = .next u) :=
  ⟨completes_twice _ _ _, completes_twice _ _ _⟩

/-- Two states that differ in the byte just above the window. -/
theorem witness_WindowDependsOnItsBytesAlone :
    (267#13).toNat ≤ 4096 ∧ keyed.keyValid = true ∧
    (({ keyed with wsize := 267 } : State).wbufWrite 267 0xFF).keyValid = true ∧
    (({ keyed with wsize := 267 } : State).wbufWrite 267 0xFF).key = keyed.key ∧
    ∀ a, a < 267 → (({ keyed with wsize := 267 } : State).wbufWrite 267 0xFF).wbufRead a =
      ({ keyed with wsize := 267 } : State).wbufRead a := by
  refine ⟨by decide, rfl, rfl, rfl, fun a ha => ?_⟩
  rw [State.wbufRead_wbufWrite, if_neg (by omega)]

theorem witness_SmallWindowsHaveNoDirection : ({ keyed with wsize := 7 } : State).wsize.toNat ≤ 7 := by
  decide

/-- A source with a byte left and one that is used up. -/
theorem witness_EncsEncryptsTheStream :
    keyed.keyValid = true ∧ (withSource keyed [0]).src.attached = true ∧
    (withSource keyed [0]).src.cursor ≤ (withSource keyed [0]).src.bytes.length ∧
    (withSource keyed []).src.cursor = (withSource keyed []).src.bytes.length :=
  ⟨rfl, rfl, by decide, rfl⟩

theorem witness_DecsDecryptsTheStream :
    (withSource keyed [0xB6]).keyValid = true ∧
    (withSource keyed [0xB6]).src.attached = true ∧
    (withSource keyed [0xB6]).src.cursor ≤ (withSource keyed [0xB6]).src.bytes.length :=
  ⟨rfl, rfl, by decide⟩

theorem witness_StreamRoundTrip :
    (withSource keyed [0]).keyValid = true ∧
    (withSource keyed [0]).src.attached = true ∧
    (∃ t, exec .encs (withSource keyed [0]) = .next t) ∧
    (∃ t, exec .decs (withSource keyed [0]) = .next t) :=
  ⟨rfl, rfl, completes _ _, completes _ _⟩

/-- Each of the four errors is recorded by some command. -/
theorem witness_ErrorsOfEachCommand :
    (∃ t, exec .keyld State.reset = .next t ∧ t.err = .invalidKey) ∧
    (∃ t, exec .encs keyed = .next t ∧ t.err = .nullInput) ∧
    (∃ t, exec .encw State.reset = .next t ∧ t.err = .uninitializedKey) ∧
    (∃ t, exec .decw { keyed with wsize := 4097 } = .next t ∧ t.err = .illegalCommand) :=
  ⟨next_of_seen (by decide +kernel), next_of_seen (by decide +kernel),
    next_of_seen (by decide +kernel), next_of_seen (by decide +kernel)⟩

theorem witness_PhaseAfterACommand :
    (∃ t, exec .decs (withSource keyed [0]) = .next t ∧ t.phase = .done) ∧
    (∃ t, exec .encw keyed = .next t ∧ t.phase = .idle) :=
  ⟨next_of_seen (by decide +kernel), next_of_seen (by decide +kernel)⟩

theorem witness_OnlyKeyldWritesTheKey :
    Instr.decw ≠ .keyld ∧ ∃ t, exec .decw keyed = .next t :=
  ⟨by decide, completes _ _⟩

/-- A step that is no reset and no `KEYLD`, from a state with a valid key. -/
theorem witness_OnlyKeyldAndResetChangeTheKey :
    (∃ t, step (facing keyed .drain) = .next t) ∧
    (facing keyed .drain).host.head? ≠ some .reset ∧
    (facing keyed .drain).keyValid = true ∧
    (facing keyed .drain).host.head? ≠ some (commandAct (encode .keyld)) :=
  ⟨⟨_, rfl⟩, by decide, rfl, by decide⟩

theorem witness_CommandsLeaveTheRestAlone :
    (∃ t, exec .encw keyed = .next t) ∧ Instr.encw ≠ .encs ∧ Instr.encw ≠ .decs :=
  ⟨completes _ _, by decide, by decide⟩

/-- A state that is not reset's: a valid key, a byte in each buffer, a source half read, `Done`. -/
theorem witness_StepKeepsTheInvariant :
    ({ keyed with
        phase := .done, secret := [(63, 1)], wbuf := [(0, 1), (4095, 2)], host := [.drain]
        src := { attached := true, bytes := [1, 2], cursor := 1 } } : State).Inv ∧
    ∃ t, step { keyed with
        phase := .done, secret := [(63, 1)], wbuf := [(0, 1), (4095, 2)], host := [.drain]
        src := { attached := true, bytes := [1, 2], cursor := 1 } } = .next t :=
  ⟨⟨by decide, by decide, by decide, .inr rfl, fun _ => ⟨rfl, rfl⟩, nofun⟩, ⟨_, rfl⟩⟩

theorem witness_ResetValues : (facing keyed .reset).host = .reset :: [] := rfl

theorem witness_StatusRegister :
    (facing keyed (.memWrite 0x0004 .w4 0xFFFFFFFF)).host =
      .memWrite 0x0004 .w4 0xFFFFFFFF :: [] := rfl

/-- The first and the last transaction of each width in each buffer. -/
theorem witness_HostReadsTheMap :
    (0 < 64 ∧ 0 % Width.w4.bytes = 0) ∧ (63 < 64 ∧ 63 % Width.w1.bytes = 0) ∧
    (62 < 64 ∧ 62 % Width.w2.bytes = 0) ∧ (60 < 64 ∧ 60 % Width.w4.bytes = 0) ∧
    (4095 < 4096 ∧ 4095 % Width.w1.bytes = 0) ∧ (4094 < 4096 ∧ 4094 % Width.w2.bytes = 0) ∧
    (4092 < 4096 ∧ 4092 % Width.w4.bytes = 0) := by decide

/-- A read that is answered and one that is refused. -/
theorem witness_HostReadsChangeNothing :
    (∃ t, step (facing keyed (.memRead 0x0010 .w4)) = .next t) ∧
    keyed.memRead 0x0010 .w4 = some 0x33323130#32 ∧
    (∃ t, step (facing keyed (.memRead 0x0020 .w4)) = .next t) :=
  ⟨⟨_, rfl⟩, rfl, ⟨_, rfl⟩⟩

theorem witness_HostWritesTheBuffers :
    (4092 < 4096 ∧ 4092 % Width.w4.bytes = 0 ∧
      (facing keyed (.memWrite (BitVec.ofNat 13 (0x1000 + 4092)) .w4 1)).host =
        .memWrite (BitVec.ofNat 13 (0x1000 + 4092)) .w4 1 :: []) ∧
    (63 < 64 ∧ 63 % Width.w1.bytes = 0 ∧
      (facing keyed (.memWrite (BitVec.ofNat 13 (0x0040 + 63)) .w1 1)).host =
        .memWrite (BitVec.ofNat 13 (0x0040 + 63)) .w1 1 :: []) :=
  ⟨⟨by decide, by decide, rfl⟩, ⟨by decide, by decide, rfl⟩⟩

theorem witness_HostWritesTheRegisters :
    (facing keyed (.memWrite 0x0008 .w4 0xFFFFFFFF)).host =
      .memWrite 0x0008 .w4 0xFFFFFFFF :: [] ∧
    (facing keyed (.memWrite 0x000C .w4 16)).host = .memWrite 0x000C .w4 16 :: [] ∧
    (3 < 4 ∧ (facing keyed (.memWrite (BitVec.ofNat 13 (0x0010 + 4 * 3)) .w4 1)).host =
      .memWrite (BitVec.ofNat 13 (0x0010 + 4 * 3)) .w4 1 :: []) := ⟨rfl, rfl, by decide, rfl⟩

/-- One transaction for each reason to refuse, at the ends of the ranges, and a read and a write (to
`CMD`) that are not refused. -/
theorem witness_RefusedTransactionsChangeNothing :
    (0x1FFF#13).toNat % Width.w2.bytes ≠ 0 ∧
    ((0x001F#13).toNat < 0x0020 ∧ Width.w1 ≠ .w4) ∧
    (0x0020 ≤ (0x0020#13).toNat ∧ (0x003F#13).toNat < 0x0040) ∧
    (0x0080 ≤ (0x0080#13).toNat ∧ (0x0FFF#13).toNat < 0x1000) ∧
    (facing keyed (.memRead 0x0020 .w4)).host = .memRead 0x0020 .w4 :: [] ∧
    (facing keyed (.memWrite 0x0FFF .w1 1)).host = .memWrite 0x0FFF .w1 1 :: [] ∧
    (¬ ((0x1FFF#13).toNat % Width.w1.bytes ≠ 0 ∨ ((0x1FFF#13).toNat < 0x0020 ∧ Width.w1 ≠ .w4) ∨
      (0x0020 ≤ (0x1FFF#13).toNat ∧ (0x1FFF#13).toNat < 0x0040) ∨
      (0x0080 ≤ (0x1FFF#13).toNat ∧ (0x1FFF#13).toNat < 0x1000)) ∧
      (facing keyed (.memRead 0x1FFF .w1)).host = .memRead 0x1FFF .w1 :: []) ∧
    (¬ ((0x0000#13).toNat % Width.w4.bytes ≠ 0 ∨ ((0x0000#13).toNat < 0x0020 ∧ Width.w4 ≠ .w4) ∨
      (0x0020 ≤ (0x0000#13).toNat ∧ (0x0000#13).toNat < 0x0040) ∨
      (0x0080 ≤ (0x0000#13).toNat ∧ (0x0000#13).toNat < 0x1000)) ∧
      (facing keyed (.memWrite 0x0000 .w4 5)).host = .memWrite 0x0000 .w4 5 :: []) :=
  ⟨by decide, by decide, by decide, by decide, rfl, rfl, ⟨by decide, rfl⟩, ⟨by decide, rfl⟩⟩

theorem witness_PortActs :
    (facing keyed (.attach [1])).host = .attach [1] :: [] ∧
    (facing keyed .detach).host = .detach :: [] ∧
    (facing keyed .drain).host = .drain :: [] := ⟨rfl, rfl, rfl⟩

end Sys2Proof.Tests
end

section
/-! SUPPORT. What a command and a step can do, read off the next state: by the fields a command may
write, and by what an act of the host is settled to. Used by the statements on 10_state.md. -/

namespace Sys2Proof.Machine

/-! ### The next state of a command -/

/-- The next states `t` of command `i` in `s`, by the fields it may write: those of an error
(60_exceptions.md R185), of `KEYLD`, of a command that works in `WBUF`, of a stream command. -/
inductive CommandResult (s : State) : Instr → State → Prop where
  | raised {i : Instr} {e : ErrCode} (he : e ≠ .none) :
      CommandResult s i { s with phase := .idle, err := e }
  | keyLoaded {key : Key} :
      CommandResult s .keyld { s with phase := .idle, err := .none, key, keyValid := true }
  | inPlace {i : Instr} {wbuf : Memory} {mix : MixRegs} {chk : ChkRegs} {draws : Nat}
      (not_keyld : i ≠ .keyld) (not_stream : ¬ (i = .encs ∨ i = .decs))
      (wf : s.wbuf.wf 4096 = true → wbuf.wf 4096 = true) :
      CommandResult s i { s with phase := .idle, err := .none, wbuf, mix, chk, draws }
  | streamed {i : Instr} {wsize : BitVec 13} {wbuf : Memory} {dst : List Byte} {mix : MixRegs}
      {chk : ChkRegs} {draws : Nat} (is_stream : i = .encs ∨ i = .decs)
      (keyed : s.keyValid = true) (wf : s.wbuf.wf 4096 = true → wbuf.wf 4096 = true) :
      CommandResult s i { s with
        phase := .done, err := .none, wsize, wbuf, dst, mix, chk, draws
        src := { s.src with cursor := s.src.cursor + s.src.remaining } }

/-- No command raises the code of success. -/
theorem CanRaise.ne_none {i : Instr} {e : ErrCode} (h : CanRaise i e) : e ≠ .none := by
  rintro rfl
  cases i <;> simp [CanRaise] at h

/-- A command that raises no error has one of the other three results. -/
theorem Effect.commandResult {i : Instr} {s t : State} (h : Effect i s t) :
    CommandResult s i t := by
  cases i with
  | keyld =>
    obtain ⟨-, rfl⟩ := h
    exact .keyLoaded
  | encb off n =>
    obtain ⟨⟨two_le, -, -, le_max⟩, -, rfl⟩ := h
    exact .inPlace (by simp) (by simp)
      fun hw => runBlock_wf .encrypt two_le (s := s.begin) hw le_max
  | decb off n =>
    obtain ⟨⟨two_le, -, -, le_max⟩, -, rfl⟩ := h
    exact .inPlace (by simp) (by simp)
      fun hw => runBlock_wf .decrypt two_le (s := s.begin) hw le_max
  | tailx start =>
    obtain ⟨⟨le_max, -, -⟩, rfl⟩ := h
    exact .inPlace (by simp) (by simp)
      fun hw => tailXor_wf _ _ _ (s := s.begin) hw le_max (Nat.sub_le _ _)
  | encw =>
    obtain ⟨legal, -, rfl⟩ := h
    exact .inPlace (by simp) (by simp) fun hw => window_wf .encrypt (s := s.begin) hw legal
  | decw =>
    obtain ⟨legal, -, rfl⟩ := h
    exact .inPlace (by simp) (by simp) fun hw => window_wf .decrypt (s := s.begin) hw legal
  | encs =>
    obtain ⟨hk, -, rfl⟩ := h
    exact .streamed (.inl rfl) hk fun hw => stream_wf .encrypt (s := s.begin) hw
  | decs =>
    obtain ⟨hk, -, rfl⟩ := h
    exact .streamed (.inr rfl) hk fun hw => stream_wf .decrypt (s := s.begin) hw

/-- Every command ends in one of the four results. -/
theorem exec_commandResult {i : Instr} {s t : State} (h : exec i s = .next t) :
    CommandResult s i t := by
  obtain ⟨e, he, hnext⟩ | ⟨u, hu, hnext⟩ := exec_cases i s
  · obtain rfl := Host.Outcome.next.inj (hnext.symm.trans h)
    exact .raised he.ne_none
  · obtain rfl := Host.Outcome.next.inj (hnext.symm.trans h)
    exact hu.commandResult

theorem CommandResult.phase_rest {i : Instr} {s t : State} (h : CommandResult s i t) :
    t.phase = .idle ∨ t.phase = .done := by
  cases h with
  | raised | keyLoaded | inPlace => exact .inl rfl
  | streamed => exact .inr rfl

theorem CommandResult.phase_done_iff {i : Instr} {s t : State} (h : CommandResult s i t) :
    t.phase = .done ↔ (i = .encs ∨ i = .decs) ∧ t.err = .none := by
  cases h with
  | raised he => simp [he]
  | keyLoaded => simp
  | inPlace _ not_stream => simp [not_stream]
  | streamed is_stream => simp [is_stream]

theorem CommandResult.key_eq {i : Instr} {s t : State} (h : CommandResult s i t)
    (hi : i ≠ .keyld) : t.key = s.key ∧ t.keyValid = s.keyValid := by
  cases h with
  | keyLoaded => exact absurd rfl hi
  | raised | inPlace | streamed => exact ⟨rfl, rfl⟩

theorem CommandResult.keyValid_of_keyValid {i : Instr} {s t : State} (h : CommandResult s i t)
    (hk : s.keyValid = true) : t.keyValid = true := by
  cases h with
  | keyLoaded => rfl
  | raised | inPlace | streamed => exact hk

/-- What no command writes (10_state.md R30, R31) and the host's side. -/
theorem CommandResult.host_side_eq {i : Instr} {s t : State} (h : CommandResult s i t) :
    t.secret = s.secret ∧ t.slen = s.slen ∧ t.host = s.host ∧ t.reply = s.reply ∧
      t.epoch = s.epoch := by
  cases h <;> exact ⟨rfl, rfl, rfl, rfl, rfl⟩

/-- What only a stream command writes (10_state.md R29, R36, R37). -/
theorem CommandResult.ports_eq {i : Instr} {s t : State} (h : CommandResult s i t)
    (hi : ¬ (i = .encs ∨ i = .decs)) : t.wsize = s.wsize ∧ t.src = s.src ∧ t.dst = s.dst := by
  cases h with
  | streamed is_stream => exact absurd is_stream hi
  | raised | keyLoaded | inPlace => exact ⟨rfl, rfl, rfl⟩

/-! ### The word written to `CMD` -/

theorem runCommand_command {c : CmdWord} {i : Instr} (h : decode c = .command i) (s : State) :
    runCommand c s = exec i s := by
  simp only [runCommand, h]

theorem runCommand_illegal {c : CmdWord} {why : DecodeError} (h : decode c = .illegal why)
    (s : State) : runCommand c s = .next { s with phase := .idle, err := .illegalCommand } := by
  simp only [runCommand, h]
  rfl

/-- A word that runs is a command and has that command's result, or it raises
`IllegalCommandError`. -/
theorem runCommand_result {c : CmdWord} {s t : State} (h : runCommand c s = .next t) :
    (∃ i, decode c = .command i ∧ CommandResult s i t) ∨
      t = { s with phase := .idle, err := .illegalCommand } := by
  cases hc : decode c with
  | command i =>
    rw [runCommand_command hc] at h
    exact .inl ⟨i, rfl, exec_commandResult h⟩
  | illegal why =>
    rw [runCommand_illegal hc] at h
    exact .inr (Host.Outcome.next.inj h).symm

theorem runCommand_keyValid {c : CmdWord} {s t : State} (h : runCommand c s = .next t)
    (hk : s.keyValid = true) : t.keyValid = true := by
  obtain ⟨i, -, hr⟩ | rfl := runCommand_result h
  · exact hr.keyValid_of_keyValid hk
  · exact hk

theorem runCommand_key_eq {c : CmdWord} {s t : State} (h : runCommand c s = .next t)
    (hc : decode c ≠ .command .keyld) : t.key = s.key ∧ t.keyValid = s.keyValid := by
  obtain ⟨i, hi, hr⟩ | rfl := runCommand_result h
  · exact hr.key_eq fun e => hc (e ▸ hi)
  · exact ⟨rfl, rfl⟩

/-- A word whose reserved bits are 0 is assembled from its other fields (30_encoding.md R81). -/
theorem assemble_fields {c : CmdWord} (h0 : fieldRsv0 c = 0) (h1 : fieldRsv1 c = 0)
    (h2 : fieldRsv2 c = 0) : assemble (fieldOpc c) (fieldN c) (fieldOff c) = c := by
  have all_fields : fieldRsv2 c ++ fieldOff c ++ fieldRsv1 c ++ fieldN c ++ fieldRsv0 c ++
      fieldOpc c = c := by
    simp only [fieldRsv2, fieldOff, fieldRsv1, fieldN, fieldRsv0, fieldOpc]
    rw [BitVec.extractLsb'_append_extractLsb'_eq_extractLsb' (show 29 = 16 + 13 from rfl),
      BitVec.extractLsb'_append_extractLsb'_eq_extractLsb' (show 16 = 15 + 1 from rfl),
      BitVec.extractLsb'_append_extractLsb'_eq_extractLsb' (show 15 = 8 + 7 from rfl),
      BitVec.extractLsb'_append_extractLsb'_eq_extractLsb' (show 8 = 4 + 4 from rfl),
      BitVec.extractLsb'_append_extractLsb'_eq_extractLsb' (show 4 = 0 + 4 from rfl)]
    exact BitVec.extractLsb'_eq_self
  rw [h0, h1, h2] at all_fields
  exact all_fields

theorem decodeZ_eq_command {c : CmdWord} {i j : Instr} (h : decodeZ c i = .command j) :
    i = j ∧ fieldN c = 0 ∧ fieldOff c = 0 := by
  unfold decodeZ at h
  split at h
  · next hz => exact ⟨Decoded.command.inj h, hz⟩
  · cases h

/-- No word but its own decodes to `KEYLD` (30_encoding.md R82, R86). -/
theorem eq_encode_keyld_of_decode {c : CmdWord} (h : decode c = .command .keyld) :
    c = encode .keyld := by
  unfold decode at h
  split_ifs at h with hrsv hopc
  · obtain ⟨-, hn, hoff⟩ := decodeZ_eq_command h
    push Not at hrsv
    obtain ⟨h0, h1, h2⟩ := hrsv
    rw [← assemble_fields h0 h1 h2, hopc, hn, hoff, encode]
  · cases h
  · cases h
  · cases h
  all_goals cases (decodeZ_eq_command h).1

/-! ### One act of the host -/

/-- An accepted transaction is aligned (20_memory.md R53). -/
theorem aligned_of_target? {addr : Addr} {n : Width} {t : Target} (h : target? addr n = some t) :
    addr.toNat % n.bytes = 0 := by
  by_contra hm
  rw [target?_eq, if_pos hm] at h
  cases h

theorem registerAt_eq_cmd {r : Nat} (h : registerAt r = .cmd) : r = 0 := by
  unfold registerAt at h
  split at h
  · rfl
  all_goals cases h

/-- `CMD` is reached by a 32-bit transaction at address 0 alone (20_memory.md R51). -/
theorem addr_of_target?_cmd {addr : Addr} {n : Width} (h : target? addr n = some .cmd) :
    addr = 0x0000 ∧ n = .w4 := by
  obtain ⟨-, rfl, hreg⟩ | ⟨k, hk, -⟩ | ⟨i, hi, -⟩ := target?_cases h
  · have hr := registerAt_eq_cmd hreg.symm
    have hm : addr.toNat % 4 = 0 := aligned_of_target? h
    refine ⟨BitVec.eq_of_toNat_eq ?_, rfl⟩
    show addr.toNat = 0
    omega
  · cases hk
  · cases hi

/-- What a write comes to: it is refused, it is a command, or it writes its target. -/
theorem settleWrite_cases (s : State) (addr : Addr) (n : Width) (v : Word) :
    settleWrite s addr n v = .settled (s.answer .busError) ∨
    (addr = 0x0000 ∧ n = .w4 ∧ settleWrite s addr n v = .command v (s.answer .completed)) ∨
    ∃ t, target? addr n = some t ∧
      settleWrite s addr n v = .settled ((s.writeTarget n v t).answer .completed) := by
  unfold settleWrite
  split
  · exact .inl rfl
  · next h =>
    obtain ⟨haddr, hn⟩ := addr_of_target?_cmd h
    exact .inr (.inl ⟨haddr, hn, rfl⟩)
  · next t _ h => exact .inr (.inr ⟨t, h, rfl⟩)

/-- Only the write of its word to `CMD` starts a command (10_state.md R28). -/
theorem hostMove_eq_command {act : HostAct} {s u : State} {c : CmdWord}
    (h : hostMove act s = .command c u) : act = commandAct c ∧ u = s.answer .completed := by
  cases act with
  | memRead addr n =>
    obtain ⟨r, hr⟩ := settleRead_frame s addr n
    cases hr.symm.trans h
  | memWrite addr n v =>
    obtain hw | ⟨rfl, rfl, hw⟩ | ⟨t, -, hw⟩ := settleWrite_cases s addr n v
    · cases hw.symm.trans h
    · cases hw.symm.trans h
      exact ⟨rfl, rfl⟩
    · cases hw.symm.trans h
  | attach | detach | drain | reset => cases h

/-- Everything a step can do: wait, settle an act, or run the word written to `CMD`. -/
theorem step_cases {s t : State} (h : step s = .next t) :
    (s.host = [] ∧ t = s) ∨
    (∃ act rest, s.host = act :: rest ∧ hostMove act (s.take rest) = .settled t) ∨
    (∃ c rest, s.host = commandAct c :: rest ∧
      runCommand c ((s.take rest).answer .completed) = .next t) := by
  cases hs : s.host with
  | nil =>
    rw [step_nil hs] at h
    exact .inl ⟨rfl, (Host.Outcome.next.inj h).symm⟩
  | cons act rest =>
    simp only [step, hs] at h
    cases hm : hostMove act (s.take rest) with
    | settled u =>
      rw [hm] at h
      exact .inr (.inl ⟨act, rest, rfl, hm.trans (congrArg _ (Host.Outcome.next.inj h))⟩)
    | command c u =>
      rw [hm] at h
      obtain ⟨rfl, rfl⟩ := hostMove_eq_command hm
      exact .inr (.inr ⟨c, rest, rfl, h⟩)

theorem step_of_settled {s t : State} {act : HostAct} {rest : List HostAct}
    (h : s.host = act :: rest) (hm : hostMove act (s.take rest) = .settled t) :
    step s = .next t := by
  simp only [step, h, hm]

/-- No write of the host reaches the key (20_memory.md R54). -/
theorem State.writeTarget_key_eq (s : State) (n : Width) (v : Word) (t : Target) :
    (s.writeTarget n v t).key = s.key ∧ (s.writeTarget n v t).keyValid = s.keyValid := by
  cases t with
  | cmd | status | wsize | slen | key => exact ⟨rfl, rfl⟩
  | secret k =>
    rw [State.writeTarget, State.secretFill_frame]
    exact ⟨rfl, rfl⟩
  | wbuf i =>
    rw [State.writeTarget, s.sameButWbuf_wbufFill i (lowBytes v n.bytes)]
    exact ⟨rfl, rfl⟩

/-- No settled act but reset reaches the key. -/
theorem key_eq_of_settled {act : HostAct} {s t : State} (h : hostMove act s = .settled t)
    (hact : act ≠ .reset) : t.key = s.key ∧ t.keyValid = s.keyValid := by
  cases act with
  | memRead addr n =>
    obtain ⟨r, hr⟩ := settleRead_frame s addr n
    cases hr.symm.trans h
    exact ⟨rfl, rfl⟩
  | memWrite addr n v =>
    obtain hw | ⟨-, -, hw⟩ | ⟨tgt, -, hw⟩ := settleWrite_cases s addr n v
    all_goals cases hw.symm.trans h
    · exact ⟨rfl, rfl⟩
    · exact s.writeTarget_key_eq n v tgt
  | attach | detach | drain => cases h; exact ⟨rfl, rfl⟩
  | reset => exact absurd rfl hact

/-! ### The invariant -/

theorem State.Inv.take {s : State} (h : s.Inv) (rest : List HostAct) : (s.take rest).Inv :=
  { h with }

theorem State.Inv.answer {s : State} (h : s.Inv) (r : Reply) : (s.answer r).Inv :=
  { h with }

theorem State.Inv.secretFill {s : State} (h : s.Inv) {k : Nat} {bs : List Byte}
    (hk : k + bs.length ≤ 64) : (s.secretFill k bs).Inv := by
  rw [State.secretFill_frame]
  exact { h with secret_wf := State.secretFill_wf h.secret_wf hk }

theorem State.Inv.wbufFill {s : State} (h : s.Inv) {i : Nat} {bs : List Byte}
    (hi : i + bs.length ≤ 4096) : (s.wbufFill i bs).Inv := by
  rw [s.sameButWbuf_wbufFill i bs]
  exact { h with wbuf_wf := State.wbufFill_wf h.wbuf_wf hi }

/-- A write reaches one register or bytes inside one buffer, so it keeps the invariant. -/
theorem State.Inv.writeTarget {s : State} (h : s.Inv) {addr : Addr} {n : Width} {t : Target}
    (ht : target? addr n = some t) (v : Word) : (s.writeTarget n v t).Inv := by
  obtain ⟨-, -, rfl⟩ | ⟨k, rfl, -, hk⟩ | ⟨i, rfl, -, hi⟩ := target?_cases ht
  · obtain hr | hr | hr | hr | ⟨j, hr⟩ := registerAt_cases (addr.toNat / 4)
    all_goals rw [hr]; exact { h with }
  · exact h.secretFill (by rwa [length_lowBytes])
  · exact h.wbufFill (by rwa [length_lowBytes])

/-- The state of reset meets the invariant (10_state.md R40). -/
theorem State.reset_inv : State.reset.Inv where
  secret_wf := rfl
  wbuf_wf := rfl
  cursor_le := Nat.le_refl 0
  phase_rest := .inl rfl
  done_clean := nofun
  key_reset _ := rfl

theorem State.doReset_inv (s : State) : s.doReset.Inv := { State.reset_inv with }

/-- A settled act of the host keeps the invariant. -/
theorem State.Inv.settled {s t : State} {act : HostAct} (h : s.Inv)
    (hm : hostMove act s = .settled t) : t.Inv := by
  cases act with
  | memRead addr n =>
    obtain ⟨r, hr⟩ := settleRead_frame s addr n
    cases hr.symm.trans hm
    exact h.answer r
  | memWrite addr n v =>
    obtain hw | ⟨-, -, hw⟩ | ⟨tgt, htgt, hw⟩ := settleWrite_cases s addr n v
    all_goals cases hw.symm.trans hm
    · exact h.answer _
    · exact (h.writeTarget htgt v).answer _
  | attach bytes => cases hm; exact { h with cursor_le := Nat.zero_le _ }
  | detach | drain => cases hm; exact { h with }
  | reset => cases hm; exact s.doReset_inv

/-- Taking an error keeps the invariant. -/
theorem State.Inv.raised {s : State} (h : s.Inv) (e : ErrCode) :
    State.Inv { s with phase := .idle, err := e } :=
  { h with phase_rest := .inl rfl, done_clean := nofun }

/-- A command keeps the invariant: only a stream command leaves `PHASE` at `Done`, and it had a
valid key. -/
theorem State.Inv.commandResult {i : Instr} {s t : State} (h : s.Inv)
    (hr : CommandResult s i t) : t.Inv := by
  cases hr with
  | raised => exact h.raised _
  | keyLoaded => exact { h with phase_rest := .inl rfl, done_clean := nofun, key_reset := nofun }
  | inPlace _ _ wf =>
    exact { h with wbuf_wf := wf h.wbuf_wf, phase_rest := .inl rfl, done_clean := nofun }
  | streamed _ keyed wf =>
    have hcursor : s.src.cursor + s.src.remaining ≤ s.src.bytes.length := by
      have := h.cursor_le
      unfold Source.remaining
      omega
    exact { h with
      wbuf_wf := wf h.wbuf_wf, cursor_le := hcursor
      phase_rest := .inr rfl, done_clean := fun _ => ⟨rfl, keyed⟩ }

theorem State.Inv.runCommand {c : CmdWord} {s t : State} (h : s.Inv)
    (hrun : runCommand c s = .next t) : t.Inv := by
  obtain ⟨i, -, hr⟩ | rfl := runCommand_result hrun
  · exact h.commandResult hr
  · exact h.raised _

/-! ### The cursor (10_state.md R34) -/

/-- From a cursor at the last word, the cursor after the first `p` positions of a round is the word
before position `p`, cyclically. -/
theorem cursor_after_positions {key : Key} {sum : Word} {n p : Nat} {data : List Word}
    (hn : 2 ≤ n) (hl : data.length = n) (hp : p ≤ n) :
    let st := (List.range p).foldl (encPos key sum n) (data, word data (n - 1))
    st.2 = word st.1 ((p + n - 1) % n) := by
  have h := foldl_encPos (key := key) (sum := sum) p 0 data hl (by omega)
  rw [← List.range_eq_range', prevWord, if_pos rfl, Nat.zero_add] at h
  simp only [h]
  split
  · next hp0 =>
    subst hp0
    rw [List.range_zero, List.foldl_nil, Nat.zero_add, Nat.mod_eq_of_lt (by omega)]
  · rw [show p + n - 1 = p - 1 + n by omega, Nat.add_mod_right, Nat.mod_eq_of_lt (by omega)]

/-! ### The window's bytes (10_state.md R39) -/

/-- Window commands from states that agree on what a window depends on leave windows that agree. -/
theorem windowCommand_reads_congr {dir : Dir} {s s' : State} (hsize : WindowLegal s.wsize)
    (hk : s.keyValid = true) (hk' : s'.keyValid = true) (hkey : s'.key = s.key)
    (hwsize : s'.wsize = s.wsize) (hrd : ∀ a, a < s.wsize.toNat → s'.wbufRead a = s.wbufRead a) :
    ∃ t t', windowCommand dir s = .next t ∧ windowCommand dir s' = .next t' ∧
      ∀ a, a < s.wsize.toNat → t'.wbufRead a = t.wbufRead a := by
  have hsize' : WindowLegal s'.wsize := hwsize ▸ hsize
  have ht := windowCommand_ok (dir := dir) hsize hk
  have ht' := windowCommand_ok (dir := dir) hsize' hk'
  refine ⟨_, _, ht, ht', fun a ha => ?_⟩
  rw [windowCommand_reads hsize hk ht, windowCommand_reads hsize' hk' ht', hkey, hwsize]
  exact windowByte_congr ha hrd

/-! ### `STATUS` (10_state.md R25) -/

theorem Phase.code_toNat (p : Phase) : p.code.toNat = Spec.phaseNumber p := by
  cases p <;> rfl

theorem ErrCode.code_toNat (e : ErrCode) : e.code.toNat = Spec.errNumber e := by
  cases e <;> rfl

/-- `STATUS` as a number (R25), with the encodings of R26 and R27. -/
theorem State.status_toNat (s : State) : s.status.toNat = Spec.statusNumber s := by
  have hp := s.phase.code.isLt
  have hb := (BitVec.ofBool s.keyValid).isLt
  have hv : (BitVec.ofBool s.keyValid).toNat = if s.keyValid then 1 else 0 := by
    cases s.keyValid <;> rfl
  simp only [State.status, BitVec.toNat_append]
  rw [← Nat.shiftLeft_add_eq_or_of_lt hb, ← Nat.shiftLeft_add_eq_or_of_lt hp, hv,
    Phase.code_toNat, ErrCode.code_toNat, Spec.statusNumber]
  simp only [Nat.shiftLeft_eq, BitVec.toNat_ofNat, Nat.zero_mod, Nat.zero_mul, Nat.zero_or]
  omega

theorem State.reset_status : State.reset.status = 0 := by decide

theorem State.doReset_status (s : State) : s.doReset.status = 0 := State.reset_status

theorem State.memRead_status (s : State) : s.memRead 0x0004 .w4 = some s.status := rfl

end Sys2Proof.Machine
end

section
/-! CERTIFICATE. The statements on 10_state.md, settled. -/

namespace Sys2Proof.Machine

/-- Settles O44: a step waits, settles an act or runs a command, and each keeps the invariant. -/
theorem stepKeepsTheInvariant : Obligations.StepKeepsTheInvariant := by
  intro s t h hstep
  obtain ⟨-, rfl⟩ | ⟨act, rest, -, hm⟩ | ⟨c, rest, -, hrun⟩ := step_cases hstep
  · exact h
  · exact (h.take rest).settled hm
  · exact ((h.take rest).answer _).runCommand hrun

/-- Settles O14: whole rounds leave the cursor at the last word of their block. -/
theorem cursorIsThePreviousWord : Obligations.CursorIsThePreviousWord := by
  intro key sum n r p data hn hl hp
  rw [encRounds_eq hn r 0 data hl]
  exact cursor_after_positions hn (by rw [length_encRoundsAt, hl]) hp

/-- Settles O32, by the window command of each direction. -/
theorem windowDependsOnItsBytesAlone : Obligations.WindowDependsOnItsBytesAlone := by
  rintro i s s' (rfl | rfl) hsize hk hk' hkey hwsize hrd
  · exact windowCommand_reads_congr (dir := .encrypt) hsize hk hk' hkey hwsize hrd
  · exact windowCommand_reads_congr (dir := .decrypt) hsize hk hk' hkey hwsize hrd

/-- Settles O40, by the four results of a command. -/
theorem phaseAfterACommand : Obligations.PhaseAfterACommand := by
  intro i s t h
  have hr := exec_commandResult h
  exact ⟨hr.phase_rest, hr.phase_done_iff⟩

/-- Settles O41, by the four results of a command. -/
theorem onlyKeyldWritesTheKey : Obligations.OnlyKeyldWritesTheKey :=
  fun _ _ _ hi h => (exec_commandResult h).key_eq hi

/-- Settles O42: no settled act but reset reaches the key, and a command that does is the one word
that decodes to `KEYLD`. -/
theorem onlyKeyldAndResetChangeTheKey : Obligations.OnlyKeyldAndResetChangeTheKey := by
  intro s t hstep hreset
  obtain ⟨-, rfl⟩ | ⟨act, rest, hs, hm⟩ | ⟨c, rest, hs, hrun⟩ := step_cases hstep
  · exact ⟨id, fun _ => ⟨rfl, rfl⟩⟩
  · have hact : act ≠ .reset := by simpa [hs] using hreset
    have hkey := key_eq_of_settled hm hact
    exact ⟨fun hk => hkey.2.trans hk, fun _ => hkey⟩
  · refine ⟨fun hk => runCommand_keyValid hrun hk, fun hword => ?_⟩
    have hc : decode c ≠ .command .keyld := fun hc =>
      hword (by rw [hs, eq_encode_keyld_of_decode hc, List.head?_cons])
    exact (runCommand_key_eq hrun hc :)

/-- Settles O43, by the four results of a command. -/
theorem commandsLeaveTheRestAlone : Obligations.CommandsLeaveTheRestAlone := by
  intro i s t h
  have hr := exec_commandResult h
  obtain ⟨hsecret, hslen, hhost, hreply, hepoch⟩ := hr.host_side_eq
  exact ⟨hsecret, hslen, hhost, hreply, hepoch, fun h1 h2 => hr.ports_eq (not_or_intro h1 h2)⟩

/-- Settles O8: the write to `CMD` is taken, answered and run. -/
theorem stepRunsTheDecodedCommand : Obligations.StepRunsTheDecodedCommand := by
  intro s rest c h
  have hstep : step s = runCommand c { s with host := rest, reply := .completed } :=
    step_command h
  exact ⟨fun i hi => hstep.trans (runCommand_command hi _), hstep⟩

/-- Settles O9, by the step without an act. -/
theorem engineWaitsForTheHost : Obligations.EngineWaitsForTheHost := fun _ => step_nil

/-- Settles O45: the buffers are empty, the source is empty and there is no key. -/
theorem resetMeetsTheInvariant : Obligations.ResetMeetsTheInvariant := State.reset_inv

/-- Settles O46: the reset act settles to `State.doReset`. -/
theorem resetValues : Obligations.ResetValues := by
  intro s rest h
  refine ⟨(s.take rest).doReset, step_of_settled h rfl, rfl, ?_⟩
  rintro r (rfl | rfl)
  · exact ⟨rfl, rfl, rfl, rfl, rfl, rfl, rfl, rfl, rfl, rfl, State.doReset_status _, rfl⟩
  · exact ⟨rfl, rfl, rfl, rfl, rfl, rfl, rfl, rfl, rfl, rfl, State.reset_status, rfl⟩

/-- Settles O47: the value of `STATUS`, and a write that settles to its answer. -/
theorem statusRegister : Obligations.StatusRegister :=
  fun s => ⟨⟨s.status, s.memRead_status, s.status_toNat⟩, fun _ _ h => step_of_settled h rfl⟩

end Sys2Proof.Machine
end

section
/-! SUPPORT. The host's transactions as steps: which are refused, what a read and a write come to,
and the bytes a write leaves in a buffer. Used by the statements on 20_memory.md. -/

namespace Sys2Proof.Machine

/-! ### Refused transactions (20_memory.md R53) -/

/-- The reasons of R53: the transaction is misaligned, narrower than a register, or in one of the
two reserved ranges. `target?_eq_none_iff` ties it to the map. -/
def RefusedBy (addr : Addr) (n : Width) : Prop :=
  addr.toNat % n.bytes ≠ 0 ∨ (addr.toNat < 0x0020 ∧ n ≠ .w4) ∨
    (0x0020 ≤ addr.toNat ∧ addr.toNat < 0x0040) ∨ (0x0080 ≤ addr.toNat ∧ addr.toNat < 0x1000)

/-- The map has no target exactly for the reasons of R53. -/
theorem target?_eq_none_iff (addr : Addr) (n : Width) :
    target? addr n = none ↔ RefusedBy addr n := by
  rw [target?_eq, RefusedBy]
  split_ifs with hmis hreg hwidth hsecret hwbuf
  · exact iff_of_true rfl (.inl hmis)
  · subst hwidth
    simp only [false_iff, ne_eq, not_true, and_false, false_or]
    omega
  · exact iff_of_true rfl (.inr (.inl ⟨hreg, hwidth⟩))
  · exact iff_of_false nofun (by omega)
  · exact iff_of_false nofun (by omega)
  · exact iff_of_true rfl (by omega)

theorem State.memRead_eq_none_iff (s : State) (addr : Addr) (n : Width) :
    s.memRead addr n = none ↔ RefusedBy addr n := by
  rw [State.memRead, Option.map_eq_none_iff, target?_eq_none_iff]

/-! ### A read as a step -/

/-- Taking an act changes nothing that a read sees. -/
theorem State.memRead_take (s : State) (rest : List HostAct) (addr : Addr) (n : Width) :
    (s.take rest).memRead addr n = s.memRead addr n := rfl

theorem step_memRead_some {s : State} {addr : Addr} {n : Width} {rest : List HostAct} {d : Word}
    (h : s.host = .memRead addr n :: rest) (hd : s.memRead addr n = some d) :
    step s = .next { s with host := rest, reply := .data d } := by
  refine step_of_settled h ?_
  rw [hostMove, settleRead, State.memRead_take, hd]
  rfl

theorem step_memRead_none {s : State} {addr : Addr} {n : Width} {rest : List HostAct}
    (h : s.host = .memRead addr n :: rest) (hd : s.memRead addr n = none) :
    step s = .next { s with host := rest, reply := .busError } := by
  refine step_of_settled h ?_
  rw [hostMove, settleRead, State.memRead_take, hd]
  rfl

theorem State.memRead_of_target? {s : State} {addr : Addr} {n : Width} {t : Target}
    (ht : target? addr n = some t) : s.memRead addr n = some (s.readTarget n t) := by
  rw [State.memRead, ht, Option.map_some]

/-! ### A write as a step -/

theorem step_memWrite_none {s : State} {addr : Addr} {n : Width} {v : Word} {rest : List HostAct}
    (h : s.host = .memWrite addr n v :: rest) (ht : target? addr n = none) :
    step s = .next { s with host := rest, reply := .busError } := by
  refine step_of_settled h ?_
  rw [hostMove, settleWrite, ht]
  rfl

/-- An accepted write to any row but `CMD` writes its target and is answered. -/
theorem step_memWrite_some {s : State} {addr : Addr} {n : Width} {v : Word} {rest : List HostAct}
    {t : Target} (h : s.host = .memWrite addr n v :: rest) (ht : target? addr n = some t)
    (hcmd : t ≠ .cmd) :
    step s = .next (((s.take rest).writeTarget n v t).answer .completed) := by
  refine step_of_settled h ?_
  simp only [hostMove, settleWrite, ht]

/-- No write reaches the acts to come. -/
theorem State.writeTarget_host (s : State) (n : Width) (v : Word) (t : Target) :
    (s.writeTarget n v t).host = s.host := by
  cases t with
  | cmd | status | wsize | slen | key => rfl
  | secret k => rw [State.writeTarget, State.secretFill_frame]
  | wbuf i => rw [State.writeTarget, s.sameButWbuf_wbufFill i (lowBytes v n.bytes)]

/-- Every word written to `CMD` comes to a next state. -/
theorem runCommand_next (c : CmdWord) (s : State) : ∃ t, runCommand c s = .next t := by
  cases hc : decode c with
  | command i =>
    rw [runCommand_command hc]
    obtain ⟨e, -, h⟩ | ⟨t, -, h⟩ := exec_cases i s
    · exact ⟨_, h⟩
    · exact ⟨t, h⟩
  | illegal why => exact ⟨_, runCommand_illegal hc s⟩

/-- A command leaves the acts to come and the answer as they are. -/
theorem runCommand_host_reply {c : CmdWord} {s t : State} (h : runCommand c s = .next t) :
    t.host = s.host ∧ t.reply = s.reply := by
  obtain ⟨i, -, hr⟩ | rfl := runCommand_result h
  · obtain ⟨-, -, hhost, hreply, -⟩ := hr.host_side_eq
    exact ⟨hhost, hreply⟩
  · exact ⟨rfl, rfl⟩

/-- Every accepted write, one to `CMD` included, is answered `completed`. -/
theorem step_memWrite_completed {s : State} {addr : Addr} {n : Width} {v : Word}
    {rest : List HostAct} {tgt : Target} (h : s.host = .memWrite addr n v :: rest)
    (ht : target? addr n = some tgt) :
    ∃ t, step s = .next t ∧ t.host = rest ∧ t.reply = .completed := by
  by_cases hcmd : tgt = .cmd
  · subst hcmd
    obtain ⟨rfl, rfl⟩ := addr_of_target?_cmd ht
    obtain ⟨t, hrun⟩ := runCommand_next v ((s.take rest).answer .completed)
    obtain ⟨hhost, hreply⟩ := runCommand_host_reply hrun
    exact ⟨t, (step_command h).trans hrun, hhost, hreply⟩
  · exact ⟨_, step_memWrite_some h ht hcmd, State.writeTarget_host _ n v tgt, rfl⟩

/-- The map reaches `KEY0` to `KEY3` (20_memory.md R51). -/
theorem target?_key {j : Nat} (hj : j < 4) :
    target? (BitVec.ofNat 13 (0x0010 + 4 * j)) .w4 = some (.key (BitVec.ofNat 2 j)) := by
  obtain rfl | rfl | rfl | rfl : j = 0 ∨ j = 1 ∨ j = 2 ∨ j = 3 := by omega
  all_goals rfl

/-! ### The bytes of a write (20_memory.md R57) -/

/-- A buffer that read as `rd` and reads as `rd'` once the `n` low bytes of `v` are filled in at `i`
holds byte `k` of `v` at `i + k`, and outside these places what it held. -/
theorem reads_of_fill_lowBytes {rd rd' : Nat → Byte} {i n : Nat} {v : Word}
    (h : ∀ j, rd' j = if i ≤ j ∧ j < i + (lowBytes v n).length then (lowBytes v n).getD (j - i) 0
      else rd j) :
    (∀ k, k < n → rd' (i + k) = v.extractLsb' (8 * k) 8) ∧
      ∀ a, (a < i ∨ i + n ≤ a) → rd' a = rd a := by
  rw [length_lowBytes] at h
  constructor
  · intro k hk
    rw [h, if_pos (by omega), Nat.add_sub_cancel_left, lowBytes_getD v hk, byteOf]
  · intro a ha
    rw [h, if_neg (by omega)]

/-! ### The derived key (20_memory.md R56) -/

theorem State.deriveKey_get (s : State) {j : Nat} (hj : j < 4) :
    s.deriveKey.get (BitVec.ofNat 2 j) = s.secretWord j := by
  obtain rfl | rfl | rfl | rfl : j = 0 ∨ j = 1 ∨ j = 2 ∨ j = 3 := by omega
  all_goals rfl

theorem State.secretWord_toNat (s : State) (j : Nat) :
    (s.secretWord j).toNat =
      (s.secretRead (4 * j)).toNat + 2 ^ 8 * (s.secretRead (4 * j + 1)).toNat +
        2 ^ 16 * (s.secretRead (4 * j + 2)).toNat + 2 ^ 24 * (s.secretRead (4 * j + 3)).toNat := by
  rw [State.secretWord_eq, readLE, wordLE_toNat]

end Sys2Proof.Machine
end

section
/-! CERTIFICATE. The statements on 20_memory.md, settled. -/

namespace Sys2Proof.Machine

/-- Settles O48: each row is read at its target, a buffer by the value of a little-endian read. -/
theorem hostReadsTheMap : Obligations.HostReadsTheMap := by
  intro s
  refine ⟨rfl, ⟨s.status, s.memRead_status, s.status_toNat⟩,
    ⟨s.wsize.setWidth 32, rfl, BitVec.toNat_setWidth_of_le (by decide)⟩,
    rfl, rfl, rfl, rfl, rfl, ?_, ?_⟩
  · intro k n hk hm
    exact ⟨_, State.memRead_of_target? (target?_secret hk hm), readLE_toNat s.secretRead k n⟩
  · intro i n hi hm
    exact ⟨_, State.memRead_of_target? (target?_wbuf hi hm), readLE_toNat s.wbufRead i n⟩

/-- Settles O50: the write is a fill of the buffer with the low bytes of the value. -/
theorem hostWritesTheBuffers : Obligations.HostWritesTheBuffers := by
  intro s n v rest
  constructor
  · intro i hi hm h
    obtain ⟨written, kept⟩ :=
      reads_of_fill_lowBytes ((s.take rest).wbufRead_wbufFill i (lowBytes v n.bytes))
    refine ⟨_, step_memWrite_some h (target?_wbuf hi hm) nofun, written, kept, ?_⟩
    exact congrArg (State.answer · .completed) ((s.take rest).sameButWbuf_wbufFill i _)
  · intro i hi hm h
    obtain ⟨written, kept⟩ :=
      reads_of_fill_lowBytes ((s.take rest).secretRead_secretFill i (lowBytes v n.bytes))
    refine ⟨_, step_memWrite_some h (target?_secret hi hm) nofun, written, kept, ?_⟩
    exact congrArg (State.answer · .completed) ((s.take rest).secretFill_frame i _)

/-- Settles O52: the map has no target exactly for the reasons of R53, and each transaction is a
step by whether it has one. -/
theorem refusedTransactionsChangeNothing : Obligations.RefusedTransactionsChangeNothing := by
  intro s addr n v rest
  have hread := s.memRead_eq_none_iff addr n
  have htarget := target?_eq_none_iff addr n
  refine ⟨hread, ?_, ?_, ?_⟩
  · rintro hrefused (h | h)
    · exact step_memRead_none h (hread.mpr hrefused)
    · exact step_memWrite_none h (htarget.mpr hrefused)
  · intro haccepted h
    obtain ⟨d, hd⟩ := Option.ne_none_iff_exists'.mp (mt hread.mp haccepted)
    exact ⟨d, hd, step_memRead_some h hd⟩
  · intro haccepted h
    obtain ⟨tgt, ht⟩ := Option.ne_none_iff_exists'.mp (mt htarget.mp haccepted)
    exact step_memWrite_completed h ht

/-- Settles O16: the next state of `KEYLD`, and the value of a word of the secret. -/
theorem keyldDerivesTheKey : Obligations.KeyldDerivesTheKey := by
  intro s hlen
  refine ⟨_, execKeyld_ok hlen, fun j hj => ?_, rfl⟩
  exact (congrArg BitVec.toNat (s.deriveKey_get hj)).trans (s.secretWord_toNat j)

/-- Settles O49, by whether the read is accepted. -/
theorem hostReadsChangeNothing : Obligations.HostReadsChangeNothing := by
  intro s t addr n rest h hstep
  cases hd : s.memRead addr n with
  | none =>
    obtain rfl := Host.Outcome.next.inj ((step_memRead_none h hd).symm.trans hstep)
    exact ⟨rfl, nofun⟩
  | some d =>
    obtain rfl := Host.Outcome.next.inj ((step_memRead_some h hd).symm.trans hstep)
    exact ⟨rfl, fun v hv => congrArg Reply.data (Option.some.inj hv)⟩

/-- Settles O51: each write is accepted, and its register takes the value or is read-only. -/
theorem hostWritesTheRegisters : Obligations.HostWritesTheRegisters := by
  intro s v rest
  refine ⟨fun h => ?_, fun h => ?_, fun j hj h => ?_⟩
  · exact ⟨_, step_memWrite_some (t := .wsize) h rfl nofun, BitVec.toNat_setWidth 13 v, rfl⟩
  · exact step_memWrite_some (t := .slen) h rfl nofun
  · exact step_memWrite_some h (target?_key hj) nofun

end Sys2Proof.Machine
end

section
/-! SUPPORT. The command word: its fields as numbers, the decoder as the converse of the encoder,
the rows of the opcode map, and when a command is illegal. Used by the statements on
30_encoding.md. -/

namespace Sys2Proof.Machine

/-! ### The fields of a word (30_encoding.md R81) -/

theorem fieldOpc_toNat (c : CmdWord) : (fieldOpc c).toNat = c.toNat % 16 := by
  rw [fieldOpc, BitVec.extractLsb'_toNat, Nat.shiftRight_zero]

theorem fieldRsv0_toNat (c : CmdWord) : (fieldRsv0 c).toNat = c.toNat / 2 ^ 4 % 16 := by
  rw [fieldRsv0, BitVec.extractLsb'_toNat, Nat.shiftRight_eq_div_pow]

theorem fieldN_toNat (c : CmdWord) : (fieldN c).toNat = c.toNat / 2 ^ 8 % 128 := by
  rw [fieldN, BitVec.extractLsb'_toNat, Nat.shiftRight_eq_div_pow]

theorem fieldRsv1_toNat (c : CmdWord) : (fieldRsv1 c).toNat = c.toNat / 2 ^ 15 % 2 := by
  rw [fieldRsv1, BitVec.extractLsb'_toNat, Nat.shiftRight_eq_div_pow]

theorem fieldOff_toNat (c : CmdWord) : (fieldOff c).toNat = c.toNat / 2 ^ 16 % 8192 := by
  rw [fieldOff, BitVec.extractLsb'_toNat, Nat.shiftRight_eq_div_pow]

theorem fieldRsv2_toNat (c : CmdWord) : (fieldRsv2 c).toNat = c.toNat / 2 ^ 29 % 8 := by
  rw [fieldRsv2, BitVec.extractLsb'_toNat, Nat.shiftRight_eq_div_pow]

/-- The sum of R83. -/
theorem assemble_toNat (opc : BitVec 4) (n : BitVec 7) (off : BitVec 13) :
    (assemble opc n off).toNat = opc.toNat + 2 ^ 8 * n.toNat + 2 ^ 16 * off.toNat := by
  have hopc := opc.isLt
  have hn := n.isLt
  have hoff := off.isLt
  simp only [assemble, BitVec.toNat_append, BitVec.toNat_ofNat, Nat.zero_mod, Nat.zero_shiftLeft,
    Nat.zero_or, Nat.or_zero]
  rw [← Nat.shiftLeft_add_eq_or_of_lt hn, ← Nat.shiftLeft_add_eq_or_of_lt hopc]
  simp only [Nat.shiftLeft_eq]
  omega

section Assembled
variable (opc : BitVec 4) (n : BitVec 7) (off : BitVec 13)

@[simp] theorem fieldOpc_assemble : fieldOpc (assemble opc n off) = opc := by
  apply BitVec.eq_of_toNat_eq
  rw [fieldOpc_toNat, assemble_toNat]
  omega

@[simp] theorem fieldN_assemble : fieldN (assemble opc n off) = n := by
  apply BitVec.eq_of_toNat_eq
  rw [fieldN_toNat, assemble_toNat]
  omega

@[simp] theorem fieldOff_assemble : fieldOff (assemble opc n off) = off := by
  apply BitVec.eq_of_toNat_eq
  rw [fieldOff_toNat, assemble_toNat]
  omega

@[simp] theorem fieldRsv0_assemble : fieldRsv0 (assemble opc n off) = 0 := by
  apply BitVec.eq_of_toNat_eq
  rw [fieldRsv0_toNat, assemble_toNat]
  show _ = 0
  omega

@[simp] theorem fieldRsv1_assemble : fieldRsv1 (assemble opc n off) = 0 := by
  apply BitVec.eq_of_toNat_eq
  rw [fieldRsv1_toNat, assemble_toNat]
  show _ = 0
  omega

@[simp] theorem fieldRsv2_assemble : fieldRsv2 (assemble opc n off) = 0 := by
  apply BitVec.eq_of_toNat_eq
  rw [fieldRsv2_toNat, assemble_toNat]
  show _ = 0
  omega

end Assembled

/-! ### The decoder and the encoder (R83, R84) -/

theorem decode_encode (i : Instr) : decode (encode i) = .command i := by
  cases i <;> simp [decode, encode, decodeZ]

/-- A word that decodes to a command has no reserved bit (R86). -/
theorem assemble_of_decode {c : CmdWord} {i : Instr} (h : decode c = .command i) :
    assemble (fieldOpc c) (fieldN c) (fieldOff c) = c := by
  by_cases hrsv : fieldRsv0 c ≠ 0 ∨ fieldRsv1 c ≠ 0 ∨ fieldRsv2 c ≠ 0
  · rw [decode, if_pos hrsv] at h
    cases h
  · push Not at hrsv
    obtain ⟨h0, h1, h2⟩ := hrsv
    exact assemble_fields h0 h1 h2

/-- A word of format Z has no operand bit (R82). -/
theorem encode_of_decodeZ {c : CmdWord} {i j : Instr} (h : decodeZ c j = .command i)
    (hj : encode j = assemble (fieldOpc c) 0 0) :
    encode i = assemble (fieldOpc c) (fieldN c) (fieldOff c) := by
  obtain ⟨rfl, hn, hoff⟩ := decodeZ_eq_command h
  rw [hj, hn, hoff]

theorem encode_of_decode {c : CmdWord} {i : Instr} (h : decode c = .command i) : encode i = c := by
  rw [← assemble_of_decode h]
  unfold decode at h
  split_ifs at h with hrsv h1 h2 h3 h4 hn h5 h6 h7 h8
  · exact encode_of_decodeZ h (by rw [h1, encode])
  · obtain rfl := Decoded.command.inj h
    rw [h2, encode]
  · obtain rfl := Decoded.command.inj h
    rw [h3, encode]
  · obtain rfl := Decoded.command.inj h
    rw [h4, hn, encode]
  · exact encode_of_decodeZ h (by rw [h5, encode])
  · exact encode_of_decodeZ h (by rw [h6, encode])
  · exact encode_of_decodeZ h (by rw [h7, encode])
  · exact encode_of_decodeZ h (by rw [h8, encode])

/-- The words that are commands are the encoder's, one word for each command. -/
theorem decode_eq_command_iff {c : CmdWord} {i : Instr} :
    decode c = .command i ↔ encode i = c :=
  ⟨encode_of_decode, fun h => h ▸ decode_encode i⟩

/-- The words of the commands by format, Z, T and B (R82, R83). -/
theorem encode_toNat_cases (i : Instr) :
    (∃ opc, 1 ≤ opc ∧ opc ≤ 8 ∧ (encode i).toNat = opc) ∨
    (∃ off < 8192, (encode i).toNat = 4 + 2 ^ 16 * off) ∨
    (∃ opc, ∃ n < 128, ∃ off < 8192, (opc = 2 ∨ opc = 3) ∧
      (encode i).toNat = opc + 2 ^ 8 * n + 2 ^ 16 * off) := by
  cases i with
  | keyld | encw | decw | encs | decs => exact .inl ⟨_, by decide, by decide, rfl⟩
  | tailx start => exact .inr (.inl ⟨_, start.isLt, assemble_toNat 4 0 start⟩)
  | encb off n =>
    exact .inr (.inr ⟨2, _, n.isLt, _, off.isLt, .inl rfl, assemble_toNat 2 n off⟩)
  | decb off n =>
    exact .inr (.inr ⟨3, _, n.isLt, _, off.isLt, .inr rfl, assemble_toNat 3 n off⟩)

/-- A word that is no command's raises `IllegalCommandError` (R85, R86). -/
theorem runCommand_of_forall_encode_ne {c : CmdWord} (h : ∀ i, encode i ≠ c) (s : State) :
    runCommand c s = .next { s with phase := .idle, err := .illegalCommand } := by
  cases hc : decode c with
  | command i => exact absurd (encode_of_decode hc) (h i)
  | illegal why => exact runCommand_illegal hc s

/-! ### The opcode map (R84) -/

/-- The word of every command has the fixed bits of its row. -/
theorem encodedRow (i : Instr) : Laws.EncodedRow.Statement i := by
  cases i with
  | keyld => exact Laws.EncodedRow.keyld
  | encb off n => exact Laws.EncodedRow.encb off n
  | decb off n => exact Laws.EncodedRow.decb off n
  | tailx start => exact Laws.EncodedRow.tailx start
  | encw => exact Laws.EncodedRow.encw
  | decw => exact Laws.EncodedRow.decw
  | encs => exact Laws.EncodedRow.encs
  | decs => exact Laws.EncodedRow.decs

theorem fieldOpc_and (c d : CmdWord) : fieldOpc (c &&& d) = fieldOpc c &&& fieldOpc d :=
  BitVec.extractLsb'_and

theorem fieldRsv0_and (c d : CmdWord) : fieldRsv0 (c &&& d) = fieldRsv0 c &&& fieldRsv0 d :=
  BitVec.extractLsb'_and

theorem fieldN_and (c d : CmdWord) : fieldN (c &&& d) = fieldN c &&& fieldN d :=
  BitVec.extractLsb'_and

theorem fieldRsv1_and (c d : CmdWord) : fieldRsv1 (c &&& d) = fieldRsv1 c &&& fieldRsv1 d :=
  BitVec.extractLsb'_and

theorem fieldRsv2_and (c d : CmdWord) : fieldRsv2 (c &&& d) = fieldRsv2 c &&& fieldRsv2 d :=
  BitVec.extractLsb'_and

/-- Every mask of the map keeps the opcode and the reserved fields, so a word that matches is
assembled from the row's opcode and its own operands. -/
theorem assemble_of_and_mask {c mask : CmdWord} {opc : BitVec 4}
    (h : c &&& mask = assemble opc 0 0)
    (keeps : fieldOpc mask = BitVec.allOnes 4 ∧ fieldRsv0 mask = BitVec.allOnes 4 ∧
      fieldRsv1 mask = BitVec.allOnes 1 ∧ fieldRsv2 mask = BitVec.allOnes 3) :
    assemble opc (fieldN c) (fieldOff c) = c := by
  obtain ⟨kopc, k0, k1, k2⟩ := keeps
  have hopc : fieldOpc c = opc := by
    simpa only [fieldOpc_and, kopc, BitVec.and_allOnes, fieldOpc_assemble] using congrArg fieldOpc h
  have h0 : fieldRsv0 c = 0 := by
    simpa only [fieldRsv0_and, k0, BitVec.and_allOnes, fieldRsv0_assemble] using
      congrArg fieldRsv0 h
  have h1 : fieldRsv1 c = 0 := by
    simpa only [fieldRsv1_and, k1, BitVec.and_allOnes, fieldRsv1_assemble] using
      congrArg fieldRsv1 h
  have h2 : fieldRsv2 c = 0 := by
    simpa only [fieldRsv2_and, k2, BitVec.and_allOnes, fieldRsv2_assemble] using
      congrArg fieldRsv2 h
  rw [← hopc, assemble_fields h0 h1 h2]

/-- The mask of format T keeps `N` too. -/
theorem assemble_of_and_maskT {c : CmdWord} {opc : BitVec 4}
    (h : c &&& 0xE000FFFF#32 = assemble opc 0 0) : assemble opc 0 (fieldOff c) = c := by
  have kn : fieldN 0xE000FFFF#32 = BitVec.allOnes 7 := by decide
  have hn : fieldN c = 0 := by
    simpa only [fieldN_and, kn, BitVec.and_allOnes, fieldN_assemble] using congrArg fieldN h
  rw [← hn, assemble_of_and_mask h (by decide)]

/-- A word with the fixed bits of a row is the word of a command of that row. -/
theorem exists_encode_of_row {c : CmdWord} (m : Mnemonic)
    (h : c &&& (opcodeRow m).mask = (opcodeRow m).pattern) :
    ∃ i, encode i = c ∧ i.mnemonic = m := by
  have whole {d : CmdWord} (hd : c &&& 0xFFFFFFFF#32 = d) : d = c :=
    hd.symm.trans BitVec.and_allOnes
  cases m with
  | KEYLD => exact ⟨.keyld, whole h, rfl⟩
  | ENCB =>
    exact ⟨.encb (fieldOff c) (fieldN c), assemble_of_and_mask (opc := 2) h (by decide), rfl⟩
  | DECB =>
    exact ⟨.decb (fieldOff c) (fieldN c), assemble_of_and_mask (opc := 3) h (by decide), rfl⟩
  | TAILX => exact ⟨.tailx (fieldOff c), assemble_of_and_maskT (opc := 4) h, rfl⟩
  | ENCW => exact ⟨.encw, whole h, rfl⟩
  | DECW => exact ⟨.decw, whole h, rfl⟩
  | ENCS => exact ⟨.encs, whole h, rfl⟩
  | DECS => exact ⟨.decs, whole h, rfl⟩

/-- The rows of the map as R84 lists them are the rows by mnemonic. -/
theorem opcodeRow_of_mem {m : Mnemonic} {pattern mask : Word}
    (h : (m, pattern, mask) ∈ Spec.opcodeMap) :
    (opcodeRow m).pattern = pattern ∧ (opcodeRow m).mask = mask := by
  simp only [Spec.opcodeMap, List.mem_cons, Prod.mk.injEq, List.not_mem_nil, or_false] at h
  obtain ⟨rfl, rfl, rfl⟩ | ⟨rfl, rfl, rfl⟩ | ⟨rfl, rfl, rfl⟩ | ⟨rfl, rfl, rfl⟩ | ⟨rfl, rfl, rfl⟩ |
    ⟨rfl, rfl, rfl⟩ | ⟨rfl, rfl, rfl⟩ | ⟨rfl, rfl, rfl⟩ := h
  all_goals exact ⟨rfl, rfl⟩

/-! ### The legality check after the match (R87 to R89, R94) -/

/-- The command a decoded word stands for while `WSIZE` holds `wsize`, if it is legal: the second
half of `decodeLegal`. -/
def legalCommand? (d : Decoded) (wsize : BitVec 13) : Option Instr :=
  d.instr?.filter fun i => legal i wsize

theorem decodeLegal_eq (c : CmdWord) (wsize : BitVec 13) :
    decodeLegal c wsize = legalCommand? (decode c) wsize := rfl

theorem legalCommand?_illegal (why : DecodeError) (wsize : BitVec 13) :
    legalCommand? (.illegal why) wsize = none := rfl

theorem legalCommand?_command (i : Instr) (wsize : BitVec 13) :
    legalCommand? (.command i) wsize = if legal i wsize then some i else none := rfl

theorem legalCommand?_decodeZ (c : CmdWord) (i : Instr) (wsize : BitVec 13) :
    legalCommand? (decodeZ c i) wsize =
      if fieldN c = 0 ∧ fieldOff c = 0 then (if legal i wsize then some i else none) else none := by
  rw [decodeZ, apply_ite (legalCommand? · wsize)]
  rfl

/-- The match and the legality check together make the tests of R94, in its order: both are one tree
of cases on the numbers of the fields. -/
theorem decodeLegal_eq_spec (c : Word) (wsize : BitVec 13) :
    decodeLegal c wsize = Spec.decode c wsize := by
  have reserved : (fieldRsv0 c ≠ 0 ∨ fieldRsv1 c ≠ 0 ∨ fieldRsv2 c ≠ 0) ↔
      ((fieldRsv2 c).toNat ≠ 0 ∨ (fieldRsv1 c).toNat ≠ 0 ∨ (fieldRsv0 c).toNat ≠ 0) := by
    simp only [ne_eq, BitVec.toNat_eq]
    tauto
  rw [decodeLegal_eq]
  unfold decode Spec.decode
  simp only [← fieldOpc_toNat, ← fieldN_toNat, ← fieldOff_toNat, ← fieldRsv0_toNat,
    ← fieldRsv1_toNat, ← fieldRsv2_toNat, ← reserved, BitVec.ofNat_toNat, BitVec.setWidth_eq]
  simp only [apply_ite (legalCommand? · wsize), legalCommand?_illegal, legalCommand?_command,
    legalCommand?_decodeZ, legal, decide_eq_true_eq, if_true, ite_and,
    BitVec.toNat_eq, BitVec.ofNat_eq_ofNat, BitVec.toNat_ofNat, Nat.reducePow, Nat.reduceMod]

/-! ### The commands that raise `IllegalCommandError` (R87 to R89) -/

theorem Effect.err_none {i : Instr} {s t : State} (h : Effect i s t) : t.err = .none := by
  cases i with
  | keyld =>
    obtain ⟨-, rfl⟩ := h
    rfl
  | tailx =>
    obtain ⟨-, rfl⟩ := h
    rfl
  | encb | decb | encw | decw | encs | decs =>
    obtain ⟨-, -, rfl⟩ := h
    rfl

/-- A command whose operands are not legal raises `IllegalCommandError`. -/
theorem exec_illegal {i : Instr} {s : State} (h : legal i s.wsize = false) :
    exec i s = .next { s with phase := .idle, err := .illegalCommand } := by
  cases i with
  | keyld | encs | decs => cases h
  | encb off n | decb off n => exact blockCommand_illegal (of_decide_eq_false h)
  | tailx start => exact execTailx_illegal (of_decide_eq_false h)
  | encw | decw => exact windowCommand_illegal (of_decide_eq_false h)

/-- A command that has its effect or raises another error does not record `IllegalCommandError`. -/
theorem exec_err_ne_of_not_canRaise {i : Instr} {s t : State} (hi : ¬ CanRaise i .illegalCommand)
    (h : exec i s = .next t) : t.err ≠ .illegalCommand := by
  obtain ⟨e, he, hnext⟩ | ⟨u, hu, hnext⟩ := exec_cases i s
  · obtain rfl := Host.Outcome.next.inj (hnext.symm.trans h)
    rintro rfl
    exact hi he
  · obtain rfl := Host.Outcome.next.inj (hnext.symm.trans h)
    simp [hu.err_none]

theorem blockCommand_err_ne_of_legal {dir : Dir} {off : BitVec 13} {n : BitVec 7} {s t : State}
    (hl : BlockLegal off n) (h : blockCommand dir off n s = .next t) : t.err ≠ .illegalCommand := by
  cases hk : s.keyValid with
  | false =>
    obtain rfl := Host.Outcome.next.inj ((blockCommand_noKey hl hk).symm.trans h)
    nofun
  | true =>
    obtain rfl := Host.Outcome.next.inj ((blockCommand_ok hl hk).symm.trans h)
    nofun

theorem windowCommand_err_ne_of_legal {dir : Dir} {s t : State} (hl : WindowLegal s.wsize)
    (h : windowCommand dir s = .next t) : t.err ≠ .illegalCommand := by
  cases hk : s.keyValid with
  | false =>
    obtain rfl := Host.Outcome.next.inj ((windowCommand_noKey hl hk).symm.trans h)
    nofun
  | true =>
    obtain rfl := Host.Outcome.next.inj ((windowCommand_ok hl hk).symm.trans h)
    nofun

theorem exec_err_ne_of_legal {i : Instr} {s t : State} (hl : legal i s.wsize = true)
    (h : exec i s = .next t) : t.err ≠ .illegalCommand := by
  cases i with
  | keyld | encs | decs => exact exec_err_ne_of_not_canRaise (by simp [CanRaise]) h
  | encb off n | decb off n => exact blockCommand_err_ne_of_legal (of_decide_eq_true hl) h
  | tailx start =>
    obtain rfl := Host.Outcome.next.inj ((execTailx_ok (of_decide_eq_true hl)).symm.trans h)
    nofun
  | encw | decw => exact windowCommand_err_ne_of_legal (of_decide_eq_true hl) h

/-- A command records `IllegalCommandError` exactly when the legality check fails. -/
theorem exec_err_illegalCommand_iff {i : Instr} {s t : State} (h : exec i s = .next t) :
    t.err = .illegalCommand ↔ legal i s.wsize = false := by
  cases hl : legal i s.wsize with
  | false =>
    obtain rfl := Host.Outcome.next.inj ((exec_illegal hl).symm.trans h)
    exact iff_of_true rfl rfl
  | true => exact iff_of_false (exec_err_ne_of_legal hl h) nofun

end Sys2Proof.Machine
end

section
/-! CERTIFICATE. The statements on 30_encoding.md, settled. -/

namespace Sys2Proof.Machine

/-- Settles O1: the fields of an assembled word are the opcode and the operands it is made of. -/
theorem decodeOfEncode : Obligations.DecodeOfEncode := decode_encode

/-- Settles O2: a word that decodes to a command has no bit outside that command's fields. -/
theorem encodeOfDecode : Obligations.EncodeOfDecode := fun _ _ => encode_of_decode

/-- Settles O3: a command's word has the fixed bits of its row, and a word with these bits is
assembled as one of the row's commands. -/
theorem decodeIsMaskAndMatch : Obligations.DecodeIsMaskAndMatch := by
  intro m pattern mask hrow c
  obtain ⟨rfl, rfl⟩ := opcodeRow_of_mem hrow
  simp only [decode_eq_command_iff]
  constructor
  · rintro ⟨i, rfl, rfl⟩
    exact encodedRow i
  · exact exists_encode_of_row m

/-- Settles O4, by the tests of R94 on the fields. -/
theorem legalDecodeIsTheSpecsAlgorithm : Obligations.LegalDecodeIsTheSpecsAlgorithm :=
  decodeLegal_eq_spec

/-- Settles O6: in no format has the word of a command one of these bits. -/
theorem reservedBitsRaise : Obligations.ReservedBitsRaise := by
  intro c s hlo hhi hbits
  refine runCommand_of_forall_encode_ne ?_ s
  rintro i rfl
  obtain ⟨opc, -, hle, hz⟩ | ⟨off, hoff, ht⟩ | ⟨opc, n, hn, off, hoff, hopc, hb⟩ :=
    encode_toNat_cases i
  · omega
  · omega
  · omega

/-- Settles O21, by the legality check. -/
theorem blockOperandLegality : Obligations.BlockOperandLegality := by
  rintro off n i s t (rfl | rfl) h
  · exact (exec_err_illegalCommand_iff h).trans decide_eq_false_iff_not
  · exact (exec_err_illegalCommand_iff h).trans decide_eq_false_iff_not

/-- Settles O30, by the legality check. -/
theorem windowLegality : Obligations.WindowLegality := by
  intro i s t h
  have herr := exec_err_illegalCommand_iff h
  constructor
  · rintro (rfl | rfl)
    · exact herr.trans decide_eq_false_iff_not
    · exact herr.trans decide_eq_false_iff_not
  · rintro (rfl | rfl | rfl)
    all_goals exact exec_err_ne_of_legal rfl h

/-- Settles O5: in every format the opcode of a command's word is 1 to 8. -/
theorem reservedOpcodesRaise : Obligations.ReservedOpcodesRaise := by
  intro c s hopc
  refine runCommand_of_forall_encode_ne ?_ s
  rintro i rfl
  obtain ⟨opc, hlo, hhi, hz⟩ | ⟨off, -, ht⟩ | ⟨opc, n, -, off, -, hb, hw⟩ := encode_toNat_cases i
  · omega
  · omega
  · omega

/-- Settles O7: each word is the encoder's word of its command. -/
theorem exampleWordsDecode : Obligations.ExampleWordsDecode :=
  ⟨decode_encode .keyld, decode_encode (.encb 0 64), decode_encode (.decb 256 11),
    decode_encode (.tailx 256), decode_encode .encw, decode_encode .decw, decode_encode .encs,
    decode_encode .decs⟩

/-- Settles O25, by the legality check. -/
theorem tailOperandLegality : Obligations.TailOperandLegality :=
  fun _ _ _ h => (exec_err_illegalCommand_iff h).trans decide_eq_false_iff_not

/-- Settles O53: each act of a port is settled at once. -/
theorem portActs : Obligations.PortActs :=
  fun _ _ _ => ⟨fun h => step_of_settled h rfl, fun h => step_of_settled h rfl,
    fun h => step_of_settled h rfl⟩

end Sys2Proof.Machine
end

section
/-! The statements on 40_key_derivation.md: `KEYLD` on a long and on a short secret. -/

namespace Sys2Proof.Machine

/-- Settles O18: both secrets are long enough, and the derived key reads their first 16 bytes only. -/
theorem keyldIgnoresBytesBeyondTheSixteenth : Obligations.KeyldIgnoresBytesBeyondTheSixteenth := by
  intro s s' hlen hlen' hagree
  have hkey : s'.deriveKey = s.deriveKey := State.deriveKey_congr hagree
  exact ⟨_, _, execKeyld_ok hlen, execKeyld_ok hlen', hkey⟩

/-- Settles O17: the secret is short, so the arm of `KEYLD` raises. -/
theorem keyldRejectsAShortSecret : Obligations.KeyldRejectsAShortSecret :=
  fun _ hshort => execKeyld_short hshort

end Sys2Proof.Machine
end

section
/-! SUPPORT. The mixing engine on whole blocks: the round count, the mixing value as a number, the
round sums, and that the two directions undo each other as functions and as block commands. Used by
the statements on 41_block_cipher.md. -/

namespace Sys2Proof.Machine

/-! ### The round count (R112) -/

theorem rounds_eq_of_bounds {n k : Nat} (lo : k * n ≤ 52) (hi : 52 < (k + 1) * n) :
    rounds n = 6 + k :=
  congrArg (6 + ·) (Nat.div_eq_of_lt_le lo hi)

/-! ### The mixing value (R113, R114) -/

theorem keyIndex_toNat (p : Nat) (e : BitVec 2) : (keyIndex p e).toNat = (p % 4) ^^^ e.toNat := by
  rw [keyIndex, BitVec.toNat_xor, BitVec.toNat_ofNat]

theorem Key.get_toNat (key : Key) (j : BitVec 2) :
    (key.get j).toNat =
      [key.k0.toNat, key.k1.toNat, key.k2.toNat, key.k3.toNat].getD j.toNat 0 := by
  have hcases : ∀ j : BitVec 2, j = 0 ∨ j = 1 ∨ j = 2 ∨ j = 3 := by decide
  obtain rfl | rfl | rfl | rfl := hcases j
  all_goals rfl

/-! ### The round sums (R117, R118) -/

/-- `k` rounds after the first `j`: round `r + 1` uses the sum `(r + 1) * DELTA`. -/
theorem encRounds_eq_foldl (key : Key) (n k j : Nat) (st : List Word × Word) :
    encRounds key n k (BitVec.ofNat 32 j * Config.delta) st =
      (List.range' j k).foldl
        (fun st r => encRound key (BitVec.ofNat 32 (r + 1) * Config.delta) n st) st := by
  induction k generalizing j st with
  | zero => rfl
  | succ k ih => rw [encRounds, ← ofNat_succ_mul_delta, ih, List.range'_succ, List.foldl_cons]

/-! ### The two directions undo each other (R120) -/

/-- Inverse rounds with falling sums undo forward rounds with rising sums, the last round first. -/
theorem decRounds_encRoundsAt {key : Key} {n : Nat} (hn : 2 ≤ n) (k : Nat) {data : List Word}
    (hl : data.length = n) :
    decRounds key n k (BitVec.ofNat 32 k * Config.delta) (encRoundsAt key n k 0 data) = data := by
  induction k with
  | zero => rfl
  | succ k ih =>
    rw [encRoundsAt_succ_last, zero_add, decRounds,
      decRound_encRoundAt hn ((length_encRoundsAt _ _ _ _ _).trans hl), ofNat_succ_mul_delta,
      BitVec.add_sub_cancel, ih]

/-- Forward rounds with rising sums undo inverse rounds with falling sums, the last round first. -/
theorem encRoundsAt_decRounds {key : Key} {n : Nat} (hn : 2 ≤ n) (k : Nat) {data : List Word}
    (hl : data.length = n) :
    encRoundsAt key n k 0 (decRounds key n k (BitVec.ofNat 32 k * Config.delta) data) = data := by
  induction k generalizing data with
  | zero => rfl
  | succ k ih =>
    have hsum : BitVec.ofNat 32 (k + 1) * Config.delta - Config.delta =
        BitVec.ofNat 32 k * Config.delta := by
      rw [ofNat_succ_mul_delta, BitVec.add_sub_cancel]
    rw [encRoundsAt_succ_last, zero_add, decRounds, hsum,
      ih ((length_decRound _ _ _ _).trans hl), encRoundAt_decRound hn hl]

theorem mixDec_mixEnc {n : Nat} (hn : 2 ≤ n) {data : List Word} (hl : data.length = n) (key : Key) :
    mixDec (mixEnc data n hn key) n hn key = data := by
  rw [mixEnc_eq hn hl]
  exact decRounds_encRoundsAt hn (rounds n) hl

theorem mixEnc_mixDec {n : Nat} (hn : 2 ≤ n) {data : List Word} (hl : data.length = n) (key : Key) :
    mixEnc (mixDec data n hn key) n hn key = data :=
  (mixEnc_eq hn (length_mixBlock .decrypt hn hl key) key).trans
    (encRoundsAt_decRounds hn (rounds n) hl)

/-- The direction that undoes `dir`. -/
def Dir.opposite : Dir → Dir
  | .encrypt => .decrypt
  | .decrypt => .encrypt

theorem mixBlock_opposite (dir : Dir) {n : Nat} (hn : 2 ≤ n) {data : List Word}
    (hl : data.length = n) (key : Key) :
    mixBlock dir.opposite (mixBlock dir data n hn key) n hn key = data := by
  cases dir with
  | encrypt => exact mixDec_mixEnc hn hl key
  | decrypt => exact mixEnc_mixDec hn hl key

/-! ### A block in `WBUF` (R121, R122) -/

/-- The block loaded where it was just mixed. -/
theorem loadBlock_runBlock (dir : Dir) (off n : Nat) (hn : 2 ≤ n) (s : State) :
    (runBlock dir off n hn s).loadBlock off n = mixBlock dir (s.loadBlock off n) n hn s.key := by
  have h := s.loadBlock_storeBlock off (mixBlock dir (s.loadBlock off n) n hn s.key)
  rwa [length_mixBlock dir hn (s.length_loadBlock off n)] at h

/-- Byte `a` of a block is a byte of one of its words (20_memory.md R55). -/
theorem byteOf_word_loadBlock (s : State) {off n a : Nat} (lo : off ≤ a) (hi : a < off + 4 * n) :
    byteOf (word (s.loadBlock off n) ((a - off) / 4)) ((a - off) % 4) = s.wbufRead a := by
  have haddr : off + 4 * ((a - off) / 4) + (a - off) % 4 = a := by omega
  rw [word, s.loadBlock_getD off (by omega), s.byteOf_ldW _ _ (Nat.mod_lt _ (by decide)), haddr]

/-- A block mixed one way and then the other, under one key, has the bytes it had. -/
theorem wbufRead_runBlock_opposite (dir : Dir) {off n : Nat} (hn : 2 ≤ n) {s t : State}
    (hkey : t.key = s.key) (ht : ∀ a, t.wbufRead a = (runBlock dir off n hn s).wbufRead a)
    (a : Nat) : (runBlock dir.opposite off n hn t).wbufRead a = s.wbufRead a := by
  have hblock : mixBlock dir.opposite (blockOf t.wbufRead off n) n hn t.key = s.loadBlock off n := by
    rw [← State.loadBlock_eq_blockOf, State.loadBlock_congr fun j _ _ => ht j, loadBlock_runBlock,
      hkey, mixBlock_opposite dir hn (s.length_loadBlock off n)]
  rw [wbufRead_runBlock]
  split
  · next h =>
    rw [mixedByte, hblock]
    exact byteOf_word_loadBlock s h.1 h.2
  · next h => rw [ht, wbufRead_runBlock, if_neg h]

/-! ### The block commands (R121, R122) -/

/-- A block command with legal operands and a valid key: the words of the block, the bytes outside it,
and the rest of the state. -/
theorem blockCommand_mixes (dir : Dir) {off : BitVec 13} {n : BitVec 7} {s : State}
    (h : BlockLegal off n) (hk : s.keyValid = true) :
    ∃ t, blockCommand dir off n s = .next t ∧
      (∀ p, p < n.toNat → t.ldW (off.toNat + 4 * p) =
        word (mixBlock dir (s.loadBlock off.toNat n.toNat) n.toNat h.1 s.key) p) ∧
      (∀ a, (a < off.toNat ∨ off.toNat + 4 * n.toNat ≤ a) → t.wbufRead a = s.wbufRead a) ∧
      t = { s with phase := .idle, err := .none, wbuf := t.wbuf, mix := t.mix, draws := t.draws } := by
  have ht := blockCommand_ok (dir := dir) h hk
  have hreads := blockCommand_reads h hk ht
  refine ⟨_, ht, fun p hp => ?_, fun a ha => ?_, rfl⟩
  · rw [State.ldW_congr fun k _ => hreads _, ldW_runBlock dir h.1 s hp]
  · rw [hreads, wbufRead_runBlock, if_neg (by omega)]

/-- A block command that raises its error keeps the key's validity and every byte. -/
theorem blockCommand_raised_reads {dir : Dir} {off : BitVec 13} {n : BitVec 7} {s t : State}
    (h : ¬ (BlockLegal off n ∧ s.keyValid = true)) (ht : blockCommand dir off n s = .next t) :
    t.keyValid = s.keyValid ∧ ∀ a, t.wbufRead a = s.wbufRead a := by
  obtain ⟨e, -, hs⟩ := (blockCommand_cases dir off n s).resolve_right h
  obtain rfl := Host.Outcome.next.inj (hs.symm.trans ht)
  exact ⟨rfl, fun _ => rfl⟩

/-- A block command and then the opposite one with the same operands: both do their work or both
raise the same error. -/
theorem blockCommand_opposite_reads {dir : Dir} {off : BitVec 13} {n : BitVec 7} {s t u : State}
    (ht : blockCommand dir off n s = .next t) (hu : blockCommand dir.opposite off n t = .next u)
    (a : Nat) : u.wbufRead a = s.wbufRead a := by
  by_cases h : BlockLegal off n ∧ s.keyValid = true
  · obtain ⟨hl, hk⟩ := h
    have hnext := Host.Outcome.next.inj (ht.symm.trans (blockCommand_ok hl hk))
    have hkt : t.keyValid = true := hnext ▸ hk
    have hkey : t.key = s.key := hnext ▸ rfl
    rw [blockCommand_reads hl hkt hu,
      wbufRead_runBlock_opposite dir hl.1 hkey (blockCommand_reads hl hk ht)]
  · obtain ⟨hvalid, hreads⟩ := blockCommand_raised_reads h ht
    rw [(blockCommand_raised_reads (hvalid ▸ h) hu).2, hreads]

end Sys2Proof.Machine
end

section
/-! CERTIFICATE. The statements on 41_block_cipher.md, settled. -/

namespace Sys2Proof.Machine

/-- Settles O13: the rounds after the first `j` for `j = 0`. -/
theorem sumSchedule : Obligations.SumSchedule := by
  intro key n k st
  have h := encRounds_eq_foldl key n k 0 st
  rwa [BitVec.zero_mul, ← List.range_eq_range'] at h

/-- Settles O15: the rounds of one direction undo those of the other, the last first. -/
theorem mixDecAndMixEncAreInverse : Obligations.MixDecAndMixEncAreInverse :=
  fun _ hn _ key hl => ⟨mixDec_mixEnc hn hl key, mixEnc_mixDec hn hl key⟩

/-- Settles O19, by the block command that encrypts. -/
theorem encbMixesTheBlock : Obligations.EncbMixesTheBlock :=
  fun _ _ _ two_le hmax halign hend hk =>
    blockCommand_mixes .encrypt ⟨two_le, hmax, halign, hend⟩ hk

/-- Settles O20, by the block command that decrypts. -/
theorem decbUnmixesTheBlock : Obligations.DecbUnmixesTheBlock :=
  fun _ _ _ two_le hmax halign hend hk =>
    blockCommand_mixes .decrypt ⟨two_le, hmax, halign, hend⟩ hk

/-- Settles O22: in either order the second command is the opposite of the first. -/
theorem blockRoundTrip : Obligations.BlockRoundTrip := by
  rintro off n s t u (⟨ht, hu⟩ | ⟨ht, hu⟩)
  · exact blockCommand_opposite_reads (dir := .encrypt) ht hu
  · exact blockCommand_opposite_reads (dir := .decrypt) ht hu

/-- Settles O11: the quotient `52 div N` by its bounds in each row of the table. -/
theorem roundCounts : Obligations.RoundCounts := by
  refine ⟨fun _ _ => rfl, rfl, rfl, rfl, rfl, rfl, rfl, rfl, rfl, rfl, rfl, rfl, rfl,
    fun n lo hi => ?_, fun n lo hi => ?_, fun n lo hi => ?_, fun n lo hi => ?_⟩
  · exact rounds_eq_of_bounds (k := 3) (by omega) (by omega)
  · exact rounds_eq_of_bounds (k := 2) (by omega) (by omega)
  · exact rounds_eq_of_bounds (k := 1) (by omega) (by omega)
  · exact rounds_eq_of_bounds (k := 0) (by omega) (by omega)

/-- Settles O12: each operation on words is its operation on numbers, and the key word read is the one
at the number of the index. -/
theorem mixingValue : Obligations.MixingValue := by
  intro sum y z p e key
  simp only [mx, Spec.mx, BitVec.toNat_xor, BitVec.toNat_add, BitVec.toNat_ushiftRight,
    BitVec.toNat_shiftLeft, Nat.shiftRight_eq_div_pow, Nat.shiftLeft_eq, Key.get_toNat,
    keyIndex_toNat]

end Sys2Proof.Machine
end

section
/-! SUPPORT. `TAILX` as one XOR of every byte of `WBUF` with a mask that depends on the operand and on
`WSIZE` only. Used by the statements on 42_tail_xor.md. -/

namespace Sys2Proof.Machine

theorem tailMask_eq_xor {d : Nat} (h : 1 ≤ d ∧ d ≤ 7) : tailMask d = BitVec.ofNat 8 d ^^^ 0xB7#8 :=
  tailMask_eq h

/-- What `TAILX start` XORs byte `a` of `WBUF` with: nothing outside `start` to `WSIZE - 1`, and nothing
anywhere when its operand is not legal (R138). -/
def tailxMask (start wsize : BitVec 13) (a : Nat) : Byte :=
  if TailLegal start wsize ∧ start.toNat ≤ a ∧ a < wsize.toNat then tailMask (wsize.toNat - a) else 0#8

theorem tailxMask_inside {start wsize : BitVec 13} {a : Nat} (h : TailLegal start wsize)
    (lo : start.toNat ≤ a) (hi : a < wsize.toNat) :
    tailxMask start wsize a = BitVec.ofNat 8 (wsize.toNat - a) ^^^ 0xB7#8 := by
  have ⟨_, _, hd⟩ := h
  dsimp only [Config.tailMax] at hd
  rw [tailxMask, if_pos ⟨h, lo, hi⟩, tailMask_eq_xor (by omega)]

theorem tailxMask_outside {start wsize : BitVec 13} {a : Nat}
    (h : a < start.toNat ∨ wsize.toNat ≤ a) : tailxMask start wsize a = 0#8 :=
  if_neg fun ⟨_, lo, hi⟩ => h.elim (Nat.not_lt.mpr lo) (Nat.not_le.mpr hi)

theorem tailxMask_illegal {start wsize : BitVec 13} (h : ¬ TailLegal start wsize) (a : Nat) :
    tailxMask start wsize a = 0#8 :=
  if_neg fun ⟨hl, _⟩ => h hl

/-- `TAILX` keeps `WSIZE` and XORs every byte with its mask, also when it raises its error. -/
theorem execTailx_xors {start : BitVec 13} {s t : State} (ht : execTailx start s = .next t) :
    t.wsize = s.wsize ∧ ∀ a, t.wbufRead a = s.wbufRead a ^^^ tailxMask start s.wsize a := by
  by_cases h : TailLegal start s.wsize
  · have hnext := Host.Outcome.next.inj (ht.symm.trans (execTailx_ok h))
    refine ⟨hnext ▸ rfl, fun a => ?_⟩
    rw [execTailx_reads h ht, tailxMask]
    by_cases ha : start.toNat ≤ a ∧ a < s.wsize.toNat
    · rw [if_pos ha, if_pos ⟨h, ha⟩]
    · rw [if_neg ha, if_neg fun ⟨_, hm⟩ => ha hm, BitVec.xor_zero]
  · obtain rfl := Host.Outcome.next.inj ((execTailx_illegal h).symm.trans ht)
    refine ⟨rfl, fun a => ?_⟩
    rw [tailxMask_illegal h, BitVec.xor_zero]
    rfl

end Sys2Proof.Machine
end

section
/-! CERTIFICATE. The statements on 42_tail_xor.md, settled. -/

namespace Sys2Proof.Machine

/-- Settles O24: the bytes by their masks inside and outside the tail; the rest of the state by the
next state of a legal `TAILX`, which reads no `KEY_VALID`. -/
theorem tailxXorsTheTail : Obligations.TailxXorsTheTail := by
  intro start s hmax hstart htail
  have legal : TailLegal start s.wsize := ⟨hmax, hstart, htail⟩
  have ht := execTailx_ok legal
  obtain ⟨-, hreads⟩ := execTailx_xors ht
  refine ⟨_, ht, fun i lo hi => ?_, fun i hout => ?_, rfl⟩
  · rw [hreads, tailxMask_inside legal lo hi]
  · rw [hreads, tailxMask_outside hout, BitVec.xor_zero]

/-- Settles O26: both times every byte is XORed with the same mask, for the first keeps `WSIZE`. -/
theorem tailxTwiceRestores : Obligations.TailxTwiceRestores := by
  intro start s t u ht hu a
  obtain ⟨hwsize, hfirst⟩ := execTailx_xors ht
  obtain ⟨-, hsecond⟩ := execTailx_xors hu
  calc u.wbufRead a
      = s.wbufRead a ^^^ tailxMask start s.wsize a ^^^ tailxMask start s.wsize a := by
        rw [hsecond, hfirst, hwsize]
    _ = s.wbufRead a := by rw [BitVec.xor_assoc, BitVec.xor_self, BitVec.xor_zero]

/-- Settles O23, by the value of each mask. -/
theorem tailMasks : Obligations.TailMasks := ⟨rfl, rfl, rfl, rfl, rfl, rfl, rfl⟩

end Sys2Proof.Machine
end

section
/-! SUPPORT. What a window makes of each kind of its bytes, and that the two directions undo each other:
on the bytes of any buffer first, as functions, then as window commands. Used by the statements on
43_window_chunker.md. -/

namespace Sys2Proof.Machine

/-! ### Words and bytes of a mixed block (20_memory.md R55) -/

theorem readLE_of_bytes {rd : Nat → Byte} {a : Nat} {w : Word}
    (h : ∀ k, k < 4 → rd (a + k) = byteOf w k) : readLE rd a .w4 = w := by
  rw [readLE, show rd a = byteOf w 0 from h 0 (by decide), h 1 (by decide), h 2 (by decide),
    h 3 (by decide), wordLE_byteOf]

theorem byteOf_readLE (rd : Nat → Byte) (a : Nat) {k : Nat} (hk : k < 4) :
    byteOf (readLE rd a .w4) k = rd (a + k) := by
  rw [readLE, byteOf_wordLE _ _ _ _ _ hk]
  obtain rfl | rfl | rfl | rfl : k = 0 ∨ k = 1 ∨ k = 2 ∨ k = 3 := by omega
  all_goals rfl

theorem length_blockOf (rd : Nat → Byte) (off n : Nat) : (blockOf rd off n).length = n := by
  simp [blockOf]

theorem word_blockOf (rd : Nat → Byte) (off : Nat) {n p : Nat} (hp : p < n) :
    word (blockOf rd off n) p = readLE rd (off + 4 * p) .w4 := by
  simp [word, blockOf, List.getD_eq_getElem?_getD, hp]

/-- Bytes that are a mixed block's read as its words. -/
theorem readLE_of_mixed {dir : Dir} {key : Key} {rd rd' : Nat → Byte} {off n : Nat} (hn : 2 ≤ n)
    (h : ∀ j, off ≤ j → j < off + 4 * n → rd' j = mixedByte dir key rd off n hn j)
    {p : Nat} (hp : p < n) :
    readLE rd' (off + 4 * p) .w4 = word (mixBlock dir (blockOf rd off n) n hn key) p :=
  readLE_of_bytes fun k hk => by
    rw [h _ (by omega) (by omega), mixedByte_eq, show (off + 4 * p + k - off) / 4 = p by omega,
      show (off + 4 * p + k - off) % 4 = k by omega]

/-- A block mixed one way and then the other, under one key, has the bytes it had. -/
theorem mixedByte_opposite {dir : Dir} {key : Key} {rd rd' : Nat → Byte} {off n : Nat} (hn : 2 ≤ n)
    (h : ∀ j, off ≤ j → j < off + 4 * n → rd' j = mixedByte dir key rd off n hn j)
    {i : Nat} (lo : off ≤ i) (hi : i < off + 4 * n) :
    mixedByte dir.opposite key rd' off n hn i = rd i := by
  have hl := length_blockOf rd off n
  have hblock : blockOf rd' off n = mixBlock dir (blockOf rd off n) n hn key := by
    refine block_ext ((length_blockOf _ _ _).trans (length_mixBlock dir hn hl key).symm) fun p hp => ?_
    rw [length_blockOf] at hp
    rw [word_blockOf rd' off hp, readLE_of_mixed hn h hp]
  rw [mixedByte_eq, hblock, mixBlock_opposite dir hn hl, word_blockOf rd off (by omega),
    byteOf_readLE rd _ (by omega), show off + 4 * ((i - off) / 4) + (i - off) % 4 = i by omega]

/-! ### The bytes of a transformed window (R146 to R148)

A byte of a full block is `windowByte_of_lt`. -/

theorem windowByte_partial (dir : Dir) (key : Key) (rd : Nat → Byte) {size i : Nat}
    (two_le : 2 ≤ (partition size).p) (lo : 256 * (partition size).c ≤ i)
    (hi : i < 256 * (partition size).c + 4 * (partition size).p) :
    windowByte dir key rd size i =
      mixedByte dir key rd (256 * (partition size).c) (partition size).p two_le i := by
  rw [windowByte_eq, if_neg (by omega), if_pos (partition_tpos_eq size ▸ hi), dif_pos (by omega)]

theorem windowByte_tail (dir : Dir) (key : Key) (rd : Nat → Byte) {size i : Nat}
    (lo : (partition size).tpos ≤ i) :
    windowByte dir key rd size i = rd i ^^^ tailMask (size - i) := by
  have htpos := partition_tpos_eq size
  rw [windowByte_eq, if_neg (by omega), if_neg (by omega)]

theorem windowByte_above (dir : Dir) (key : Key) (rd : Nat → Byte) {size i : Nat} (lo : size ≤ i) :
    windowByte dir key rd size i = rd i := by
  have hsize := partition_tpos_add_t size
  rw [windowByte_tail dir key rd (by omega), Nat.sub_eq_zero_of_le lo, tailMask_zero]
  exact BitVec.xor_zero

/-- A window transformed one way and then the other, under one key, has the bytes it had (R153): the
partition is the same, each block is mixed back, and each tail byte meets its mask twice. -/
theorem windowByte_opposite {dir : Dir} {key : Key} {rd rd' : Nat → Byte} {size : Nat}
    (h : ∀ j, j < size → rd' j = windowByte dir key rd size j) {i : Nat} (hi : i < size) :
    windowByte dir.opposite key rd' size i = rd i := by
  have htpos := partition_tpos_eq size
  have hsize := partition_tpos_add_t size
  have hc := partition_c size
  by_cases hfull : i < 256 * (size / 256)
  · rw [windowByte_of_lt _ _ _ hfull]
    refine mixedByte_opposite (dir := dir) _ (fun j lo hj => ?_) (by omega) (by omega)
    rw [h j (by omega), windowByte_of_lt _ _ _ (by omega), show j / 256 = i / 256 by omega]
  by_cases hpartial : i < (partition size).tpos
  · have two_le : 2 ≤ (partition size).p := partition_two_le_p (by omega)
    rw [windowByte_partial _ _ _ two_le (by omega) (by omega)]
    refine mixedByte_opposite (dir := dir) _ (fun j lo hj => ?_) (by omega) (by omega)
    rw [h j (by omega), windowByte_partial _ _ _ two_le lo hj]
  · rw [windowByte_tail _ _ _ (by omega), h i hi, windowByte_tail _ _ _ (by omega),
      BitVec.xor_assoc, BitVec.xor_self, BitVec.xor_zero]

/-! ### The window commands (R151, R152) -/

/-- A window command on a legal window with a valid key: the words of the full blocks and of the partial
block, the tail's bytes, the bytes above the window, and the rest of the state. -/
theorem windowCommand_transforms (dir : Dir) {s : State} (h : WindowLegal s.wsize)
    (hk : s.keyValid = true) :
    ∃ t, windowCommand dir s = .next t ∧
      (∀ c p, c < (partition s.wsize.toNat).c → p < 64 → t.ldW (256 * c + 4 * p) =
        word (mixBlock dir (s.loadBlock (256 * c) 64) 64 (by decide) s.key) p) ∧
      (∀ (two_le : 2 ≤ (partition s.wsize.toNat).p) (p : Nat), p < (partition s.wsize.toNat).p →
        t.ldW (256 * (partition s.wsize.toNat).c + 4 * p) =
          word (mixBlock dir (s.loadBlock (256 * (partition s.wsize.toNat).c)
            (partition s.wsize.toNat).p) (partition s.wsize.toNat).p two_le s.key) p) ∧
      (∀ i, (partition s.wsize.toNat).tpos ≤ i → i < s.wsize.toNat →
        t.wbufRead i = s.wbufRead i ^^^ (BitVec.ofNat 8 (s.wsize.toNat - i) ^^^ 0xB7#8)) ∧
      (∀ i, s.wsize.toNat ≤ i → t.wbufRead i = s.wbufRead i) ∧
      t = { s with
        phase := .idle, err := .none, wbuf := t.wbuf, mix := t.mix, chk := t.chk, draws := t.draws } := by
  have ht := windowCommand_ok (dir := dir) h hk
  have hreads := windowCommand_reads h hk ht
  have hsize := partition_tpos_add_t s.wsize.toNat
  have ht7 : (partition s.wsize.toNat).t ≤ 7 := partition_t_le _
  refine ⟨_, ht, fun c p hc hp => ?_, fun two_le p hp => ?_, fun i lo hi => ?_, fun i hi => ?_, rfl⟩
  · rw [partition_c] at hc
    refine readLE_of_mixed _ (fun j lo hj => ?_) hp
    rw [hreads, windowByte_of_lt _ _ _ (by omega), show j / 256 = c by omega]
  · refine readLE_of_mixed _ (fun j lo hj => ?_) hp
    rw [hreads, windowByte_partial _ _ _ two_le lo hj]
  · rw [hreads, windowByte_tail _ _ _ lo, tailMask_eq_xor (by omega)]
  · rw [hreads, windowByte_above _ _ _ hi]

/-- A window command that raises its error keeps what decides about the next one, and every byte. -/
theorem windowCommand_raised_reads {dir : Dir} {s t : State}
    (h : ¬ (WindowLegal s.wsize ∧ s.keyValid = true)) (ht : windowCommand dir s = .next t) :
    t.wsize = s.wsize ∧ t.keyValid = s.keyValid ∧ ∀ a, t.wbufRead a = s.wbufRead a := by
  obtain ⟨e, -, hs⟩ := (windowCommand_cases dir s).resolve_right h
  obtain rfl := Host.Outcome.next.inj (hs.symm.trans ht)
  exact ⟨rfl, rfl, fun _ => rfl⟩

/-- A window command and then the opposite one: both do their work on the same window, or both raise the
same error. -/
theorem windowCommand_opposite_reads {dir : Dir} {s t u : State}
    (ht : windowCommand dir s = .next t) (hu : windowCommand dir.opposite t = .next u) (a : Nat) :
    u.wbufRead a = s.wbufRead a := by
  by_cases h : WindowLegal s.wsize ∧ s.keyValid = true
  · obtain ⟨hl, hk⟩ := h
    have hnext := Host.Outcome.next.inj (ht.symm.trans (windowCommand_ok hl hk))
    have hwsize : t.wsize = s.wsize := hnext ▸ rfl
    have hkey : t.key = s.key := hnext ▸ rfl
    have hkt : t.keyValid = true := hnext ▸ hk
    have hfirst := windowCommand_reads hl hk ht
    rw [windowCommand_reads (hwsize ▸ hl) hkt hu, hwsize, hkey]
    by_cases ha : a < s.wsize.toNat
    · exact windowByte_opposite (fun j _ => hfirst j) ha
    · rw [windowByte_above _ _ _ (Nat.le_of_not_lt ha), hfirst,
        windowByte_above _ _ _ (Nat.le_of_not_lt ha)]
  · obtain ⟨hwsize, hvalid, hfirst⟩ := windowCommand_raised_reads h ht
    obtain ⟨-, -, hsecond⟩ := windowCommand_raised_reads (hwsize ▸ hvalid ▸ h) hu
    rw [hsecond, hfirst]

/-! ### A window without a block (R149, R152) -/

theorem partition_no_block {size : Nat} (h : size ≤ 7) :
    (partition size).c = 0 ∧ (partition size).p = 0 := by
  obtain ⟨hc, -, -, -, -, -, hp⟩ := partition_spec size
  exact ⟨by omega, (hp (by omega)).1⟩

/-- A window of at most seven bytes is all tail, whatever the direction. -/
theorem window_eq_tailXor (dir : Dir) {s : State} (h : s.wsize.toNat ≤ 7) :
    window dir s = tailXor s.wsize.toNat (partition s.wsize.toNat).t (partition_t_le _) s := by
  obtain ⟨hc, hp⟩ := partition_no_block h
  have hfull : fullBlocks dir (partition s.wsize.toNat).c s = s := by rw [hc]; rfl
  have hpartial : partialBlock dir s.wsize.toNat s = s := dif_neg (by omega)
  rw [window, hfull, hpartial]

/-- The direction of a window command reaches the state through the blocks only. -/
theorem windowCommand_eq_of_small (dir dir' : Dir) {s : State} (h : s.wsize.toNat ≤ 7) :
    windowCommand dir s = windowCommand dir' s := by
  have hw : window dir s.begin = window dir' s.begin :=
    (window_eq_tailXor dir (s := s.begin) h).trans (window_eq_tailXor dir' (s := s.begin) h).symm
  simp only [windowCommand, hw]

end Sys2Proof.Machine
end

section
/-! CERTIFICATE. The statements on 43_window_chunker.md, settled. -/

namespace Sys2Proof.Machine

/-- Settles O28, by the window command that encrypts. -/
theorem encwEncryptsTheWindow : Obligations.EncwEncryptsTheWindow :=
  fun _ hsize hk => windowCommand_transforms .encrypt hsize hk

/-- Settles O29, by the window command that decrypts. -/
theorem decwDecryptsTheWindow : Obligations.DecwDecryptsTheWindow :=
  fun _ hsize hk => windowCommand_transforms .decrypt hsize hk

/-- Settles O31: in either order the second command is the opposite of the first. -/
theorem windowRoundTrip : Obligations.WindowRoundTrip := by
  rintro s t u (⟨ht, hu⟩ | ⟨ht, hu⟩)
  · exact windowCommand_opposite_reads (dir := .encrypt) ht hu
  · exact windowCommand_opposite_reads (dir := .decrypt) ht hu

/-- Settles O33: such a window has no block, and the tail has no direction. -/
theorem smallWindowsHaveNoDirection : Obligations.SmallWindowsHaveNoDirection :=
  fun _ h => windowCommand_eq_of_small .decrypt .encrypt h

/-- Settles O27, by the partition's numbers as quotients and remainders. -/
theorem partitionCutsTheWindow : Obligations.PartitionCutsTheWindow := by
  intro size hsize
  obtain ⟨hc, hr, hl, -, hend, hblock, hnone⟩ := partition_spec size
  refine ⟨hc, by omega, by omega, by omega, by omega, by omega, fun h => ?_, fun h => ?_,
    partition_tpos_eq size, hend⟩
  · obtain ⟨hp, ht⟩ := hblock (by omega)
    exact ⟨by omega, by omega, by omega⟩
  · obtain ⟨hp, ht⟩ := hnone (by omega)
    exact ⟨hp, by omega, by omega⟩

end Sys2Proof.Machine
end

section
/-! SUPPORT. What a stream command does to the state, and that the two directions undo each other: on a
list of bytes first, as functions, then as stream commands. Used by the statements on
44_stream_codec.md. -/

namespace Sys2Proof.Machine

/-! ### One partition of the whole stream, both ways (R166, R167) -/

theorem listByte_wholeImage (dir : Dir) (key : Key) {bs : List Byte} {i : Nat} (hi : i < bs.length) :
    listByte (wholeImage dir key bs) i = windowByte dir key (listByte bs) bs.length i := by
  have hlt : i < (wholeImage dir key bs).length := (length_wholeImage dir key bs).symm ▸ hi
  rw [listByte, List.getD_eq_getElem _ _ hlt, getElem_wholeImage]

/-- Bytes transformed one way and then the other, under one key, are the bytes they were: both times
they are one window of the same length. -/
theorem wholeImage_opposite (dir : Dir) (key : Key) (bs : List Byte) :
    wholeImage dir.opposite key (wholeImage dir key bs) = bs := by
  have hlen := length_wholeImage dir key bs
  refine List.ext_getElem ((length_wholeImage _ _ _).trans hlen) fun i _ hi => ?_
  rw [getElem_wholeImage, hlen,
    windowByte_opposite (fun j hj => listByte_wholeImage dir key hj) hi]
  exact List.getD_eq_getElem _ _ hi

/-! ### The stream commands (R163, R164) -/

/-- The cursor is behind the last byte once the remaining bytes are consumed. -/
theorem Source.cursor_add_remaining {src : Source} (h : src.cursor ≤ src.bytes.length) :
    src.cursor + src.remaining = src.bytes.length := Nat.add_sub_cancel' h

/-- A stream command with a valid key and an attached source: the bytes pushed, `WSIZE`, the bytes of
`WBUF`, the source used up, and the rest of the state. -/
theorem streamCommand_transforms (dir : Dir) {s : State} (hk : s.keyValid = true)
    (ha : s.src.attached = true) (hcursor : s.src.cursor ≤ s.src.bytes.length) :
    ∃ t, streamCommand dir s = .next t ∧
      t.dst = s.dst ++ wholeImage dir s.key s.src.pending ∧
      t.wsize.toNat = lastWindow (s.src.bytes.length - s.src.cursor) ∧
      (∀ a, t.wbufRead a = streamBuffer s.wbufRead (wholeImage dir s.key s.src.pending) a) ∧
      t = { s with
        phase := .done, err := .none, wsize := t.wsize, wbuf := t.wbuf
        src := { s.src with cursor := s.src.bytes.length }, dst := t.dst
        mix := t.mix, chk := t.chk, draws := t.draws } := by
  have ht := streamCommand_ok (dir := dir) hk ha
  obtain ⟨-, hwsize⟩ := stream_spec dir s.begin
  refine ⟨_, ht, rfl, hwsize, streamCommand_reads hk ha ht, ?_⟩
  rw [Source.cursor_add_remaining hcursor]

/-- The part of a stream command's effect that the next command over its output depends on. -/
theorem streamCommand_appends {dir : Dir} {s t : State} (hk : s.keyValid = true)
    (ha : s.src.attached = true) (ht : streamCommand dir s = .next t) :
    t.dst = s.dst ++ wholeImage dir s.key s.src.pending ∧ t.key = s.key ∧ t.keyValid = true := by
  obtain rfl := Host.Outcome.next.inj ((streamCommand_ok hk ha).symm.trans ht)
  exact ⟨rfl, rfl, hk⟩

/-- A stream command and then the opposite one with the first one's output as its source: the output is
as long as the source, and the second command appends the bytes the first one consumed. -/
theorem streamCommand_opposite_appends {dir : Dir} {s t : State} (hk : s.keyValid = true)
    (ha : s.src.attached = true) (ht : streamCommand dir s = .next t) :
    (t.dst.drop s.dst.length).length = s.src.bytes.length - s.src.cursor ∧
    ∃ u, streamCommand dir.opposite { t with
        src := { attached := true, bytes := t.dst.drop s.dst.length, cursor := 0 } } = .next u ∧
      u.dst.drop t.dst.length = s.src.pending := by
  obtain ⟨hdst, hkey, hkt⟩ := streamCommand_appends hk ha ht
  have hout : t.dst.drop s.dst.length = wholeImage dir s.key s.src.pending := by
    rw [hdst, List.drop_left]
  rw [hout]
  refine ⟨(length_wholeImage _ _ _).trans s.src.length_pending, _, streamCommand_ok hkt rfl, ?_⟩
  calc (t.dst ++ wholeImage dir.opposite t.key (wholeImage dir s.key s.src.pending)).drop t.dst.length
      = wholeImage dir.opposite s.key (wholeImage dir s.key s.src.pending) := by
        rw [List.drop_left, hkey]
    _ = s.src.pending := wholeImage_opposite dir s.key s.src.pending

end Sys2Proof.Machine
end

section
/-! CERTIFICATE. The statements on 44_stream_codec.md, settled. -/

namespace Sys2Proof.Machine

/-- Settles O34, by the stream command that encrypts. -/
theorem encsEncryptsTheStream : Obligations.EncsEncryptsTheStream :=
  fun _ hk ha hcursor => streamCommand_transforms .encrypt hk ha hcursor

/-- Settles O35, by the stream command that decrypts. -/
theorem decsDecryptsTheStream : Obligations.DecsDecryptsTheStream :=
  fun _ hk ha hcursor => streamCommand_transforms .decrypt hk ha hcursor

/-- Settles O36: in either order the second command is the opposite of the first. -/
theorem streamRoundTrip : Obligations.StreamRoundTrip := by
  rintro first second s t (⟨rfl, rfl⟩ | ⟨rfl, rfl⟩) hk ha ht
  · exact streamCommand_opposite_appends (dir := .encrypt) hk ha ht
  · exact streamCommand_opposite_appends (dir := .decrypt) hk ha ht

end Sys2Proof.Machine
end

section
/-! SUPPORT. The error a command records, as a function of the command and the state before it, and
the acts a step takes. Used by the statements on 60_exceptions.md. -/

namespace Sys2Proof.Machine

/-! ### The error of a command (60_exceptions.md R180 to R186) -/

/-- The error command `i` records in state `s`, in the order of R186: what `Spec.firstError` says
once the word is matched. `firstError_command` and `exec_err` tie it to the spec and to the
machine. -/
def commandError (i : Instr) (s : State) : ErrCode :=
  if legal i s.wsize = false then .illegalCommand
  else if i = .keyld ∧ s.slen.toNat < 16 then .invalidKey
  else if Spec.readsKey i = true ∧ s.keyValid = false then .uninitializedKey
  else if (i = .encs ∨ i = .decs) ∧ s.src.attached = false then .nullInput
  else .none

theorem firstError_command {c : CmdWord} {i : Instr} (h : decode c = .command i) (s : State) :
    Spec.firstError c s = commandError i s := by
  rw [Spec.firstError, ← decodeLegal_eq_spec, decodeLegal_eq, h, legalCommand?_command, commandError]
  cases legal i s.wsize with
  | false => rfl
  | true => rfl

theorem firstError_illegal {c : CmdWord} {why : DecodeError} (h : decode c = .illegal why)
    (s : State) : Spec.firstError c s = .illegalCommand := by
  rw [Spec.firstError, ← decodeLegal_eq_spec, decodeLegal_eq, h, legalCommand?_illegal]

theorem execKeyld_err (s : State) :
    ∃ t, execKeyld s = .next t ∧ t.err = if s.slen.toNat < 16 then .invalidKey else .none := by
  split_ifs with h
  · exact ⟨_, execKeyld_short h, rfl⟩
  · exact ⟨_, execKeyld_ok (Nat.le_of_not_lt h), rfl⟩

theorem blockCommand_err_of_legal (dir : Dir) {off : BitVec 13} {n : BitVec 7} (s : State)
    (hl : BlockLegal off n) :
    ∃ t, blockCommand dir off n s = .next t ∧
      t.err = if s.keyValid = false then .uninitializedKey else .none := by
  split_ifs with hk
  · exact ⟨_, blockCommand_noKey hl hk, rfl⟩
  · exact ⟨_, blockCommand_ok hl (Bool.eq_true_of_not_eq_false hk), rfl⟩

theorem windowCommand_err_of_legal (dir : Dir) {s : State} (hl : WindowLegal s.wsize) :
    ∃ t, windowCommand dir s = .next t ∧
      t.err = if s.keyValid = false then .uninitializedKey else .none := by
  split_ifs with hk
  · exact ⟨_, windowCommand_noKey hl hk, rfl⟩
  · exact ⟨_, windowCommand_ok hl (Bool.eq_true_of_not_eq_false hk), rfl⟩

/-- The key is checked before the source (44_stream_codec.md R165). -/
theorem streamCommand_err (dir : Dir) (s : State) :
    ∃ t, streamCommand dir s = .next t ∧
      t.err = if s.keyValid = false then .uninitializedKey
        else if s.src.attached = false then .nullInput else .none := by
  split_ifs with hk ha
  · exact ⟨_, streamCommand_noKey hk, rfl⟩
  · exact ⟨_, streamCommand_noSource (Bool.eq_true_of_not_eq_false hk) ha, rfl⟩
  · exact ⟨_, streamCommand_ok (Bool.eq_true_of_not_eq_false hk)
      (Bool.eq_true_of_not_eq_false ha), rfl⟩

/-- Every command comes to a next state and records exactly its first error (R186). -/
theorem exec_err (i : Instr) (s : State) :
    ∃ t, exec i s = .next t ∧ t.err = commandError i s := by
  cases hl : legal i s.wsize with
  | false => exact ⟨_, exec_illegal hl, (if_pos hl).symm⟩
  | true =>
    rw [commandError, if_neg (by simp [hl])]
    cases i with
    | keyld => simpa [exec, Spec.readsKey] using execKeyld_err s
    | encb off n =>
      simpa [exec, execEncb, Spec.readsKey] using
        blockCommand_err_of_legal .encrypt s (of_decide_eq_true hl)
    | decb off n =>
      simpa [exec, execDecb, Spec.readsKey] using
        blockCommand_err_of_legal .decrypt s (of_decide_eq_true hl)
    | tailx start => exact ⟨_, execTailx_ok (of_decide_eq_true hl), by simp [Spec.readsKey]⟩
    | encw =>
      simpa [exec, execEncw, Spec.readsKey] using
        windowCommand_err_of_legal .encrypt (of_decide_eq_true hl)
    | decw =>
      simpa [exec, execDecw, Spec.readsKey] using
        windowCommand_err_of_legal .decrypt (of_decide_eq_true hl)
    | encs => simpa [exec, execEncs, Spec.readsKey] using streamCommand_err .encrypt s
    | decs => simpa [exec, execDecs, Spec.readsKey] using streamCommand_err .decrypt s

theorem err_eq_commandError {i : Instr} {s t : State} (h : exec i s = .next t) :
    t.err = commandError i s := by
  obtain ⟨u, hu, herr⟩ := exec_err i s
  obtain rfl := Host.Outcome.next.inj (hu.symm.trans h)
  exact herr

/-- `KEYLD` and `TAILX` are not among the six key-reading commands (R183). -/
theorem ne_of_readsKey {i : Instr} (h : Spec.readsKey i = true) :
    i ≠ .keyld ∧ ∀ start, i ≠ .tailx start := by
  constructor
  · rintro rfl
    cases h
  · rintro start rfl
    cases h

/-! ### The acts a step takes (20_memory.md R63) -/

/-- No settled act, reset included, reaches the acts to come. -/
theorem host_of_settled {act : HostAct} {s t : State} (h : hostMove act s = .settled t) :
    t.host = s.host := by
  cases act with
  | memRead addr n =>
    obtain ⟨r, hr⟩ := settleRead_frame s addr n
    cases hr.symm.trans h
    rfl
  | memWrite addr n v =>
    obtain hw | ⟨-, -, hw⟩ | ⟨tgt, -, hw⟩ := settleWrite_cases s addr n v
    all_goals cases hw.symm.trans h
    · rfl
    · exact s.writeTarget_host n v tgt
  | attach | detach | drain | reset => cases h; rfl

/-- A step with an act to come takes it and leaves the others. -/
theorem step_cons {s : State} {act : HostAct} {rest : List HostAct} (h : s.host = act :: rest) :
    ∃ t, step s = .next t ∧ t.host = rest := by
  cases hm : hostMove act (s.take rest) with
  | settled t => exact ⟨t, step_of_settled h hm, host_of_settled hm⟩
  | command c u =>
    obtain ⟨rfl, -⟩ := hostMove_eq_command hm
    obtain ⟨t, hrun⟩ := runCommand_next c ((s.take rest).answer .completed)
    exact ⟨t, (step_command h).trans hrun, (runCommand_host_reply hrun).1⟩

end Sys2Proof.Machine
end

section
/-! CERTIFICATE. The statements on 60_exceptions.md, settled. -/

namespace Sys2Proof.Machine

/-- Settles O10: with no act to come the step waits, else it takes the oldest act. -/
theorem nothingStopsTheMachine : Obligations.NothingStopsTheMachine := by
  intro s
  cases hs : s.host with
  | nil => exact ⟨s, step_nil hs, hs⟩
  | cons act rest => exact step_cons hs

/-- Settles O37: a word that decodes to nothing raises, and a command raises or has its effect. -/
theorem errorsChangeErrAndPhaseOnly : Obligations.ErrorsChangeErrAndPhaseOnly := by
  intro c s
  cases hc : decode c with
  | illegal why => exact .inl ⟨.illegalCommand, nofun, runCommand_illegal hc s⟩
  | command i =>
    rw [runCommand_command hc]
    obtain ⟨e, he, h⟩ | ⟨t, ht, h⟩ := exec_cases i s
    · exact .inl ⟨e, he.ne_none, h⟩
    · exact .inr ⟨t, h, ht.err_none⟩

/-- Settles O38: a word that decodes to nothing raises `IllegalCommandError`, and a command records
its first error. -/
theorem errorPriority : Obligations.ErrorPriority := by
  intro c s
  cases hc : decode c with
  | illegal why => exact ⟨_, runCommand_illegal hc s, (firstError_illegal hc s).symm⟩
  | command i =>
    rw [runCommand_command hc, firstError_command hc]
    exact exec_err i s

/-- Settles O39: each error stands in one branch of the order of R186, under its cause. -/
theorem errorsOfEachCommand : Obligations.ErrorsOfEachCommand := by
  intro i s t h
  rw [err_eq_commandError h, commandError]
  split_ifs with hillegal hshort hkey hsource
  · exact ⟨nofun, nofun, nofun, fun _ => hillegal⟩
  · exact ⟨fun _ => hshort, nofun, nofun, nofun⟩
  · obtain ⟨hreads, hinvalid⟩ := hkey
    exact ⟨nofun, nofun, fun _ => ⟨hinvalid, ne_of_readsKey hreads⟩, nofun⟩
  · exact ⟨nofun, fun _ => hsource, nofun, nofun⟩
  · exact ⟨nofun, nofun, nofun, nofun⟩

end Sys2Proof.Machine
end
